-- ==== Sys2Proof/Word.lean ====
section
/-! DEFINITION. The widths of the Z16 core: 16-bit words (registers, the program counter, instruction words) and
8-bit bytes of memory (00_scope.md R7, R10). -/

namespace Sys2Proof

/-- A 16-bit register, program counter or instruction word (00_scope.md R7, R10). -/
abbrev Word := BitVec 16

/-- One byte of memory (00_scope.md R7). -/
abbrev Byte := BitVec 8

end Sys2Proof
end

