-- ==== Sys2Proof/Config.lean ====
section
/-! DEFINITION. What is fixed for the machine, or left to its host: the parameters of 00_scope.md R7 and R8.
`STEP_LIMIT` is not here: it is any value, so it stands in the field `ceiling` of State (log 3).
The decided ecall register is an operand form (Machine/Operands.lean, log 8); the decided decode table is Decode.lean's
(log 9). -/

namespace Sys2Proof.Config

/-- `MEM_SIZE`, the number of bytes of memory (00_scope.md R7; 20_memory.md R41). -/
def memSize : Nat := 65536

/-- What a byte of memory that nothing has written reads as: memory is zero-initialised (20_memory.md R41;
10_state.md R33). -/
def unlistedByte : Byte := 0

/-- `HOST_EXIT_CODE`: the process exit status the host returns for a halt-reason code (60_exceptions.md R155). The
spec leaves it open for codes 3 to 6 (60_exceptions.md R156; U7). A free value: no body (log 13). -/
opaque hostExitCode : Nat → Nat

end Sys2Proof.Config
end

