-- ==== Sys2Proof/Syntax.lean ====
section
/-! DEFINITION. The instructions of Z16: one constructor per row of spec/opcode_table.json, each carrying the operand
fields it needs and nothing else (30_encoding.md R81). An immediate is kept as the bits of its field; how it is extended
is an operand form (Machine/Operands.lean). -/

namespace Sys2Proof

/-- The eight general registers a 3-bit field selects (10_state.md R17). -/
inductive Reg where
  | x0 | x1 | x2 | x3 | x4 | x5 | x6 | x7
  deriving DecidableEq, Repr

/-- The 3-bit field that selects a register (10_state.md R17). -/
def Reg.bits : Reg → BitVec 3
  | .x0 => 0#3
  | .x1 => 1#3
  | .x2 => 2#3
  | .x3 => 3#3
  | .x4 => 4#3
  | .x5 => 5#3
  | .x6 => 6#3
  | .x7 => 7#3

/-- The instructions, in the order of the opcode table. In an R or I form `rd` is the first source as well as the
destination (30_encoding.md R63, R64). -/
inductive Instr where
  -- R format (41_r_type.md)
  | add (rd rs2 : Reg)
  | sub (rd rs2 : Reg)
  | and (rd rs2 : Reg)
  | or (rd rs2 : Reg)
  | xor (rd rs2 : Reg)
  | sll (rd rs2 : Reg)
  | srl (rd rs2 : Reg)
  | sra (rd rs2 : Reg)
  | slt (rd rs2 : Reg)
  | sltu (rd rs2 : Reg)
  -- I format (42_i_type.md)
  | addi (rd : Reg) (imm7 : BitVec 7)
  | andi (rd : Reg) (imm7 : BitVec 7)
  | ori (rd : Reg) (imm7 : BitVec 7)
  | xori (rd : Reg) (imm7 : BitVec 7)
  | slli (rd : Reg) (imm7 : BitVec 7)
  | srli (rd : Reg) (imm7 : BitVec 7)
  | srai (rd : Reg) (imm7 : BitVec 7)
  | slti (rd : Reg) (imm7 : BitVec 7)
  -- Branch format (43_branch.md)
  | beq (rs1 rs2 : Reg) (offset4 : BitVec 4)
  | bne (rs1 rs2 : Reg) (offset4 : BitVec 4)
  | blt (rs1 rs2 : Reg) (offset4 : BitVec 4)
  | bge (rs1 rs2 : Reg) (offset4 : BitVec 4)
  | bltu (rs1 rs2 : Reg) (offset4 : BitVec 4)
  | bgeu (rs1 rs2 : Reg) (offset4 : BitVec 4)
  -- Load/Store format (44_load_store.md): rs1 is the base
  | sb (rs2 rs1 : Reg) (offset4 : BitVec 4)
  | sw (rs2 rs1 : Reg) (offset4 : BitVec 4)
  | lb (rd rs1 : Reg) (offset4 : BitVec 4)
  | lw (rd rs1 : Reg) (offset4 : BitVec 4)
  | lbu (rd rs1 : Reg) (offset4 : BitVec 4)
  | lwu (rd rs1 : Reg) (offset4 : BitVec 4)
  -- J, JALR and U formats (45_jal.md, 46_jalr.md, 47_lui.md)
  | jal (rd : Reg) (offset13 : BitVec 13)
  | jalr (rd rs1 : Reg) (offset7 : BitVec 7)
  | lui (rd : Reg) (imm12 : BitVec 12)
  -- SYS format (48_sys.md): the service is the instruction
  | ecallPrintInt
  | ecallHalt
  | ecallPrintString
  | ecallUnknown0
  | ecallUnknown2
  | ecallUnknown4
  | ecallUnknown6
  | ecallUnknown7
  deriving DecidableEq, Repr

end Sys2Proof
end

