-- ==== Sys2Proof/WellFormed.lean ====
section
/-! DEFINITION. Which instruction terms have a word (30_encoding.md R84). Every operand field is as wide as its
constructor says, so two checks remain: `jal` and `lui` read `rd` from bits that also belong to the offset or
immediate (30_encoding.md R67, R69; log 16). -/

namespace Sys2Proof

/-- The register bits inside a `jal` offset field: `rd = offset13[5:3]` (30_encoding.md R67). -/
def jalSharedBits (offset13 : BitVec 13) : BitVec 3 := offset13.extractLsb' 3 3

/-- The register bits inside a `lui` immediate field: `rd = imm12[4:2]` (30_encoding.md R69). -/
def luiSharedBits (imm12 : BitVec 12) : BitVec 3 := imm12.extractLsb' 2 3

/-- The instruction has an encoding (30_encoding.md R84, column 'encodable when'). -/
def Instr.wellFormed : Instr → Bool
  | .add _ _ => true
  | .sub _ _ => true
  | .and _ _ => true
  | .or _ _ => true
  | .xor _ _ => true
  | .sll _ _ => true
  | .srl _ _ => true
  | .sra _ _ => true
  | .slt _ _ => true
  | .sltu _ _ => true
  | .addi _ _ => true
  | .andi _ _ => true
  | .ori _ _ => true
  | .xori _ _ => true
  | .slli _ _ => true
  | .srli _ _ => true
  | .srai _ _ => true
  | .slti _ _ => true
  | .beq _ _ _ => true
  | .bne _ _ _ => true
  | .blt _ _ _ => true
  | .bge _ _ _ => true
  | .bltu _ _ _ => true
  | .bgeu _ _ _ => true
  | .sb _ _ _ => true
  | .sw _ _ _ => true
  | .lb _ _ _ => true
  | .lw _ _ _ => true
  | .lbu _ _ _ => true
  | .lwu _ _ _ => true
  | .jal rd offset13 => decide (jalSharedBits offset13 = rd.bits)
  | .jalr _ _ _ => true
  | .lui rd imm12 => decide (luiSharedBits imm12 = rd.bits)
  | .ecallPrintInt => true
  | .ecallHalt => true
  | .ecallPrintString => true
  | .ecallUnknown0 => true
  | .ecallUnknown2 => true
  | .ecallUnknown4 => true
  | .ecallUnknown6 => true
  | .ecallUnknown7 => true

end Sys2Proof
end

