-- ==== Sys2Proof/Decode.lean ====
section
/-! DEFINITION. The decoder, total on every 16-bit word (30_encoding.md R61 to R83), and after it the encoder, written
from the same layouts (30_encoding.md R84). The selector values are the spec's decisions D4 to D11, D19 and D20 (log 9). -/

namespace Sys2Proof

/-- Why a word decodes to no instruction; it carries the raw word (30_encoding.md R82). -/
inductive DecodeError where
  /-- An opcode/funct combination that is not in the tables. -/
  | unknownFunct (word : Word)
  /-- An opcode with no format: no word has one, since all eight opcodes are defined (30_encoding.md R82; U2). -/
  | unknownOpcode (word : Word)
  deriving DecidableEq, Repr

/-- What a decoder answers. -/
abbrev DecodeResult := Except DecodeError Instr

/-! ### Fields of the word (30_encoding.md R9, R63 to R70) -/

/-- `w[lo+len-1 : lo]`, as a number: a selector field. -/
def selector (w : Word) (lo len : Nat) : Nat := (w.extractLsb' lo len).toNat

/-- The register a 3-bit field selects (10_state.md R17). -/
def Reg.ofBits (b : BitVec 3) : Reg :=
  match b.toNat with
  | 0 => .x0
  | 1 => .x1
  | 2 => .x2
  | 3 => .x3
  | 4 => .x4
  | 5 => .x5
  | 6 => .x6
  | _ => .x7

/-- `w[11:9]`: rs2, or a load's destination (30_encoding.md R63, R65, R66). -/
def regHigh (w : Word) : Reg := Reg.ofBits (w.extractLsb' 9 3)

/-- `w[8:6]`: rd, or rs1 of a branch, load or store (30_encoding.md R63 to R69). -/
def regMid (w : Word) : Reg := Reg.ofBits (w.extractLsb' 6 3)

/-- `w[5:3]`: rs1 of `jalr` (30_encoding.md R68). -/
def regLow (w : Word) : Reg := Reg.ofBits (w.extractLsb' 3 3)

/-- `w[15:12]`: offset4 (30_encoding.md R65, R66). -/
def offset4At (w : Word) : BitVec 4 := w.extractLsb' 12 4

/-- `w[15:9]`: imm7 or offset7 (30_encoding.md R64, R68). -/
def imm7At (w : Word) : BitVec 7 := w.extractLsb' 9 7

/-! ### The selector tables (30_encoding.md R77 to R80 and R70) -/

/-- RTAB, keyed by funct4 (30_encoding.md R77). -/
def rTable (funct4 : Nat) : Option (Reg → Reg → Instr) :=
  match funct4 with
  | 0 => some .add
  | 1 => some .sub
  | 2 => some .and
  | 3 => some .or
  | 4 => some .xor
  | 5 => some .sll
  | 6 => some .srl
  | 7 => some .sra
  | 8 => some .slt
  | 9 => some .sltu
  | _ => none

/-- ITAB, keyed by funct3 (30_encoding.md R78): all eight values are used. -/
def iTable (funct3 : Nat) : Option (Reg → BitVec 7 → Instr) :=
  match funct3 with
  | 0 => some .addi
  | 1 => some .andi
  | 2 => some .ori
  | 3 => some .xori
  | 4 => some .slli
  | 5 => some .srli
  | 6 => some .srai
  | 7 => some .slti
  | _ => none

/-- BTAB, keyed by funct3; operands rs1, rs2, offset4 (30_encoding.md R79). -/
def bTable (funct3 : Nat) : Option (Reg → Reg → BitVec 4 → Instr) :=
  match funct3 with
  | 0 => some .beq
  | 1 => some .bne
  | 2 => some .blt
  | 3 => some .bge
  | 4 => some .bltu
  | 5 => some .bgeu
  | _ => none

/-- STAB and LTAB, keyed by funct3; operands `w[11:9]` (data or destination), rs1, offset4 (30_encoding.md R80). -/
def lsTable (funct3 : Nat) : Option (Reg → Reg → BitVec 4 → Instr) :=
  match funct3 with
  | 0 => some .sb
  | 1 => some .sw
  | 2 => some .lb
  | 3 => some .lw
  | 4 => some .lbu
  | 5 => some .lwu
  | _ => none

/-- The ecall services: every one of the eight is legal (30_encoding.md R70, R83). -/
def sysTable (service : Nat) : Option Instr :=
  match service with
  | 0 => some .ecallUnknown0
  | 1 => some .ecallPrintInt
  | 2 => some .ecallUnknown2
  | 3 => some .ecallHalt
  | 4 => some .ecallUnknown4
  | 5 => some .ecallPrintString
  | 6 => some .ecallUnknown6
  | 7 => some .ecallUnknown7
  | _ => none

/-- The instruction a table row gives, or `UnknownFunct` with the raw word where there is no row (30_encoding.md R82). -/
def orUnknownFunct (w : Word) (i : Option Instr) : DecodeResult :=
  match i with
  | some i => .ok i
  | none => .error (.unknownFunct w)

/-- `decode` of 30_encoding.md R81. It reads nothing but the word. -/
def decode (w : Word) : DecodeResult :=
  match selector w 0 3 with
  | 0 => if selector w 3 3 = 0
         then orUnknownFunct w ((rTable (selector w 12 4)).map fun mk => mk (regMid w) (regHigh w))
         else .error (.unknownFunct w)
  | 1 => orUnknownFunct w ((iTable (selector w 3 3)).map fun mk => mk (regMid w) (imm7At w))
  | 2 => orUnknownFunct w ((bTable (selector w 3 3)).map fun mk => mk (regMid w) (regHigh w) (offset4At w))
  | 3 => orUnknownFunct w ((lsTable (selector w 3 3)).map fun mk => mk (regHigh w) (regMid w) (offset4At w))
  | 4 => .ok (.jal (regMid w) (w.extractLsb' 3 13))
  | 5 => .ok (.jalr (regMid w) (regLow w) (imm7At w))
  | 6 => .ok (.lui (regMid w) (w.extractLsb' 4 12))
  | 7 => orUnknownFunct w (sysTable (selector w 3 3))
  | _ => .error (.unknownOpcode w)

/-! ### Bytes (20_memory.md R44) -/

/-- The little-endian word of two bytes: the low byte is the one at the lower address (20_memory.md R43, R44). -/
def wordOfBytes (low high : Byte) : Word := high ++ low

/-- The byte of a word that stands at the lower address (20_memory.md R43). -/
def lowByte (w : Word) : Byte := w.extractLsb' 0 8

/-- The byte of a word that stands at the higher address (20_memory.md R43). -/
def highByte (w : Word) : Byte := w.extractLsb' 8 8

/-- What the decoder reads from the two bytes of an instruction, as memory holds them (30_encoding.md R61). -/
def decodeBytes (low high : Byte) : DecodeResult := decode (wordOfBytes low high)

/-- The low `nbits` bits of `w`, as one instruction word; every bit above them is 0. -/
def tableWord (nbits w : Nat) : Word := BitVec.ofNat 16 (w % 2 ^ nbits)

/-- The instruction the decoder reads from the `nbits`-bit table word `w`, laid out in memory as two bytes. An
instruction is 16 bits long (30_encoding.md R61), so a longer row has none. -/
def decodeTableWord (nbits w : Nat) : Option Instr :=
  if nbits ≤ 16 then
    match decodeBytes (lowByte (tableWord nbits w)) (highByte (tableWord nbits w)) with
    | .ok i => some i
    | .error _ => none
  else none

/-! ### The encoder (30_encoding.md R63 to R70, R84) -/

/-- An R word: funct4, rs2, rd, funct3 = 0, opcode 0 (30_encoding.md R63, R77). -/
def encodeR (funct4 : BitVec 4) (rd rs2 : Reg) : Word := funct4 ++ rs2.bits ++ rd.bits ++ 0#3 ++ 0#3

/-- An I word: imm7, rd, funct3, opcode 1 (30_encoding.md R64, R78). -/
def encodeI (funct3 : BitVec 3) (rd : Reg) (imm7 : BitVec 7) : Word := imm7 ++ rd.bits ++ funct3 ++ 1#3

/-- A branch word: offset4, rs2, rs1, funct3, opcode 2 (30_encoding.md R65, R79). -/
def encodeB (funct3 : BitVec 3) (rs1 rs2 : Reg) (offset4 : BitVec 4) : Word :=
  offset4 ++ rs2.bits ++ rs1.bits ++ funct3 ++ 2#3

/-- A load or store word: offset4, the data or destination register, the base, funct3, opcode 3 (30_encoding.md R66,
R80). -/
def encodeLS (funct3 : BitVec 3) (r rs1 : Reg) (offset4 : BitVec 4) : Word :=
  offset4 ++ r.bits ++ rs1.bits ++ funct3 ++ 3#3

/-- A SYS word: the ignored bits 15:6 assembled as 0, the service, opcode 7 (30_encoding.md R70, R84). -/
def encodeSys (service : BitVec 3) : Word := 0#10 ++ service ++ 7#3

/-- The word of an instruction (30_encoding.md R84). The `rd` of `jal` and `lui` is implied by the shared bits, so it
is used only in `Instr.wellFormed`; bit 3 of a `lui` word is assembled as 0. -/
def encode : Instr → Word
  | .add rd rs2 => encodeR 0#4 rd rs2
  | .sub rd rs2 => encodeR 1#4 rd rs2
  | .and rd rs2 => encodeR 2#4 rd rs2
  | .or rd rs2 => encodeR 3#4 rd rs2
  | .xor rd rs2 => encodeR 4#4 rd rs2
  | .sll rd rs2 => encodeR 5#4 rd rs2
  | .srl rd rs2 => encodeR 6#4 rd rs2
  | .sra rd rs2 => encodeR 7#4 rd rs2
  | .slt rd rs2 => encodeR 8#4 rd rs2
  | .sltu rd rs2 => encodeR 9#4 rd rs2
  | .addi rd imm7 => encodeI 0#3 rd imm7
  | .andi rd imm7 => encodeI 1#3 rd imm7
  | .ori rd imm7 => encodeI 2#3 rd imm7
  | .xori rd imm7 => encodeI 3#3 rd imm7
  | .slli rd imm7 => encodeI 4#3 rd imm7
  | .srli rd imm7 => encodeI 5#3 rd imm7
  | .srai rd imm7 => encodeI 6#3 rd imm7
  | .slti rd imm7 => encodeI 7#3 rd imm7
  | .beq rs1 rs2 offset4 => encodeB 0#3 rs1 rs2 offset4
  | .bne rs1 rs2 offset4 => encodeB 1#3 rs1 rs2 offset4
  | .blt rs1 rs2 offset4 => encodeB 2#3 rs1 rs2 offset4
  | .bge rs1 rs2 offset4 => encodeB 3#3 rs1 rs2 offset4
  | .bltu rs1 rs2 offset4 => encodeB 4#3 rs1 rs2 offset4
  | .bgeu rs1 rs2 offset4 => encodeB 5#3 rs1 rs2 offset4
  | .sb rs2 rs1 offset4 => encodeLS 0#3 rs2 rs1 offset4
  | .sw rs2 rs1 offset4 => encodeLS 1#3 rs2 rs1 offset4
  | .lb rd rs1 offset4 => encodeLS 2#3 rd rs1 offset4
  | .lw rd rs1 offset4 => encodeLS 3#3 rd rs1 offset4
  | .lbu rd rs1 offset4 => encodeLS 4#3 rd rs1 offset4
  | .lwu rd rs1 offset4 => encodeLS 5#3 rd rs1 offset4
  | .jal _ offset13 => offset13 ++ 4#3
  | .jalr rd rs1 offset7 => offset7 ++ rd.bits ++ rs1.bits ++ 5#3
  | .lui _ imm12 => imm12 ++ 0#1 ++ 6#3
  | .ecallPrintInt => encodeSys 1#3
  | .ecallHalt => encodeSys 3#3
  | .ecallPrintString => encodeSys 5#3
  | .ecallUnknown0 => encodeSys 0#3
  | .ecallUnknown2 => encodeSys 2#3
  | .ecallUnknown4 => encodeSys 4#3
  | .ecallUnknown6 => encodeSys 6#3
  | .ecallUnknown7 => encodeSys 7#3

end Sys2Proof
end

