-- ==== Sys2Proof/Machine/State.lean ====
section
/-! DEFINITION. The state of the core as plain data, and its reset value (10_state.md; INVENTORY.md, '## State'). -/

namespace Sys2Proof.Machine

/-- The register file: eight registers of 16 bits, `x0` an ordinary one (10_state.md R17, R18). -/
structure Regs where
  x0 : Word
  x1 : Word
  x2 : Word
  x3 : Word
  x4 : Word
  x5 : Word
  x6 : Word
  x7 : Word
  deriving DecidableEq, Repr

/-- Memory: the (address, byte) pairs that differ from what an unlisted address reads as, addresses rising
(20_memory.md R41; log 12). -/
abbrev Memory := List Host.Cell

/-- The run state (10_state.md R24). -/
inductive RunState where
  | running
  | halted
  deriving DecidableEq, Repr

/-- Why the core halted (10_state.md R25; 60_exceptions.md R155; log 17). -/
inductive HaltReason where
  /-- `NONE`: still Running. -/
  | none
  /-- `HALT_ECALL`: `ecall 3`. -/
  | haltEcall
  /-- `END_OF_MEMORY`: the next pc lies outside memory. -/
  | endOfMemory
  /-- `FAULT_OUT_OF_BOUNDS`: a memory access out of range. -/
  | faultOutOfBounds
  /-- `DECODE_UNKNOWN_FUNCT`: an illegal word. -/
  | decodeUnknownFunct
  /-- `DECODE_UNKNOWN_OPCODE`: no word of the default table causes it. -/
  | decodeUnknownOpcode
  /-- `STEP_LIMIT`: `steps` reached the limit. -/
  | stepLimit
  deriving DecidableEq, Repr

/-- The halt status record (10_state.md R25). A field its reason does not use reads as 0. -/
structure HaltRecord where
  reason : HaltReason
  faultPc : Word
  faultWord : Word
  faultAddr : Int
  faultWidth : Nat
  haltTarget : Int
  deriving DecidableEq, Repr

/-- The record while Running: `NONE` and zeros (10_state.md R33). -/
def HaltRecord.clear : HaltRecord :=
  { reason := .none, faultPc := 0, faultWord := 0, faultAddr := 0, faultWidth := 0, haltTarget := 0 }

/-- One event handed to the host (10_state.md R27). -/
inductive Event where
  /-- An integer to print, as 16 bits. -/
  | printInt (v : Word)
  /-- One byte of a printed string. -/
  | printByte (b : Byte)
  /-- An unknown ecall service, by its code. -/
  | diag (code : BitVec 3)
  deriving DecidableEq, Repr

/-- The step ceiling, where one is configured: the number `STEP_LIMIT`, and `steps`, the count of completed instructions
that exists only beside it (10_state.md R28; 60_exceptions.md R163). -/
structure StepCeiling where
  limit : Nat
  steps : Nat
  deriving DecidableEq, Repr

/-- Everything the spec gives the machine. `ceiling` also holds the open parameter `STEP_LIMIT`, which no step changes
(00_scope.md R8; log 3). -/
structure State where
  regs : Regs
  pc : Word
  mem : Memory
  run : RunState
  halt : HaltRecord
  /-- Oldest event first. -/
  out : List Event
  /-- `none` where `STEP_LIMIT = none`: then there is no step counter either. -/
  ceiling : Option StepCeiling
  deriving DecidableEq, Repr

/-- Why a step has no next state. -/
inductive Fault where
  /-- The core is Halted, and 'in Halted no step exists' (40_execution_cycle.md R87). Raised by `cycle` alone. SAFE: it
  stops where the machine has stopped (log 1). -/
  | halted
  deriving DecidableEq, Repr

/-- Why an instruction has no meaning here. -/
inductive Refusal where
  /-- The instruction has no meaning in this model yet. Raised by `exec`'s refused arms alone, of which there is none.
  SAFE: the model stops. -/
  | notModelled (mnemonic : String)
  deriving DecidableEq, Repr

/-- The reset values of 10_state.md R33: registers and pc 0, memory all zero, Running, the clear record, no output; the
step limit at its default `none`, so that there is no step counter (10_state.md R28; 92_eei_decisions.md D28; log 3). A
program, and a limit with its counter at 0, come in through `State.boot` (log 11). -/
def State.reset : State :=
  { regs := { x0 := 0, x1 := 0, x2 := 0, x3 := 0, x4 := 0, x5 := 0, x6 := 0, x7 := 0 },
    pc := 0,
    mem := [],
    run := .running,
    halt := HaltRecord.clear,
    out := [],
    ceiling := Option.none }

end Sys2Proof.Machine
end

