-- ==== Sys2Proof/Machine/Ops.lean ====
section
/-! DEFINITION. The named operations over registers and memory, the output stream, and the one way the core halts
(00_scope.md R11, R12; 20_memory.md; 40_execution_cycle.md R92 to R94). Every exceptional condition of this core ends
the run (60_exceptions.md R153): `State.haltWith` is its exception entry, and there is no return (R160). -/

namespace Sys2Proof.Machine

/-! ### Registers (10_state.md R17, R18) -/

def Regs.read (g : Regs) : Reg → Word
  | .x0 => g.x0
  | .x1 => g.x1
  | .x2 => g.x2
  | .x3 => g.x3
  | .x4 => g.x4
  | .x5 => g.x5
  | .x6 => g.x6
  | .x7 => g.x7

def Regs.write (g : Regs) (r : Reg) (v : Word) : Regs :=
  match r with
  | .x0 => { g with x0 := v }
  | .x1 => { g with x1 := v }
  | .x2 => { g with x2 := v }
  | .x3 => { g with x3 := v }
  | .x4 => { g with x4 := v }
  | .x5 => { g with x5 := v }
  | .x6 => { g with x6 := v }
  | .x7 => { g with x7 := v }

/-- `x[r]` (00_scope.md R11). -/
def State.reg (s : State) (r : Reg) : Word := s.regs.read r

/-- `x[r] <- v` (00_scope.md R11). -/
def State.setReg (s : State) (r : Reg) (v : Word) : State := { s with regs := s.regs.write r v }

/-! ### Memory (20_memory.md) -/

/-- `M[a]`. -/
def Memory.read : Memory → Nat → Byte
  | [], _ => Config.unlistedByte
  | (k, b) :: m, a => if k = a then b else Memory.read m a

/-- Memory without any cell at `a`. -/
def Memory.erase : Memory → Nat → Memory
  | [], _ => []
  | (k, c) :: m, a => if k = a then Memory.erase m a else (k, c) :: Memory.erase m a

/-- Memory with a cell at `a`, put before the first higher address. -/
def Memory.insert : Memory → Nat → Byte → Memory
  | [], a, b => [(a, b)]
  | (k, c) :: m, a, b => if a < k then (a, b) :: (k, c) :: m else (k, c) :: Memory.insert m a b

/-- `M[a] <- b`, keeping the canonical form: a byte that an unlisted address reads as is not listed. -/
def Memory.write (m : Memory) (a : Nat) (b : Byte) : Memory :=
  if b = Config.unlistedByte then m.erase a else (m.erase a).insert a b

/-- The cells are listed at rising addresses from `low` on, inside memory, and none holds the unlisted byte. -/
def Memory.wfFrom (low : Nat) : Memory → Bool
  | [] => true
  | (k, b) :: m =>
    decide (low ≤ k) && decide (k < Config.memSize) && decide (b ≠ Config.unlistedByte) && Memory.wfFrom (k + 1) m

/-- The canonical form: two memories in it that read alike are the same list (log 12). -/
def Memory.wf (m : Memory) : Bool := Memory.wfFrom 0 m

/-- The bounds check of an `n`-byte access at the exact integer address `a`: `0 <= a` and `a + n <= MEM_SIZE`
(20_memory.md R46). The second comparison is made on natural numbers, where it evaluates in few steps. -/
def inBounds (a : Int) (n : Nat) : Bool := decide (0 ≤ a) && decide (a.toNat + n ≤ Config.memSize)

/-- `MemRead(a, 1)`; `none` where the bounds check fails (20_memory.md R43, R46). -/
def Memory.read1 (m : Memory) (a : Int) : Option Byte :=
  if inBounds a 1 then some (m.read a.toNat) else none

/-- `MemRead(a, 2) = M[a+1] : M[a]` at any alignment; `none` where the bounds check fails (20_memory.md R43, R46, R48). -/
def Memory.read2 (m : Memory) (a : Int) : Option Word :=
  if inBounds a 2 then some (wordOfBytes (m.read a.toNat) (m.read (a.toNat + 1))) else none

/-- `MemWrite(a, 1, b)`; `none`, and nothing written, where the bounds check fails (20_memory.md R43, R46). -/
def Memory.write1 (m : Memory) (a : Int) (b : Byte) : Option Memory :=
  if inBounds a 1 then some (m.write a.toNat b) else none

/-- `MemWrite(a, 2, v)`: the low byte at `a`, the high byte at `a + 1`; `none`, and neither byte written, where the
bounds check fails (20_memory.md R43, R46). -/
def Memory.write2 (m : Memory) (a : Int) (v : Word) : Option Memory :=
  if inBounds a 2 then some ((m.write a.toNat (lowByte v)).write (a.toNat + 1) (highByte v)) else none

/-- The NUL-terminated string scan of `ecall 5` (48_sys.md R150), with `left` bytes of memory from `a` on: the bytes
before the first zero byte, and whether one was found. With none left the next read is at 65536 and fails its check. -/
def Memory.scan (m : Memory) : (left : Nat) → (a : Nat) → List Byte × Bool
  | 0, _ => ([], false)
  | left + 1, a =>
    if m.read a = 0 then ([], true)
    else
      let rest := Memory.scan m left (a + 1)
      (m.read a :: rest.1, rest.2)

/-! ### The host stream (10_state.md R27) -/

/-- `emit`: the events join the stream in order (00_scope.md R12). -/
def State.emit (s : State) (es : List Event) : State := { s with out := s.out ++ es }

/-! ### The program counter, and the ways a step ends (40_execution_cycle.md R91 to R94) -/

/-- The word the fetch reads at pc, `M[pc+1] : M[pc]` (20_memory.md R44). The halt record's `fault_word` is this word
(10_state.md R25; log 5). -/
def State.wordAtPc (s : State) : Word := wordOfBytes (s.mem.read s.pc.toNat) (s.mem.read (s.pc.toNat + 1))

/-- The exact integer `pc + 2` (40_execution_cycle.md R91). -/
def State.sequentialPc (s : State) : Int := s.pc.toNat + 2

/-- `trunc16(pc + 2)`, what `jal` and `jalr` link (45_jal.md R139; 46_jalr.md R142). -/
def State.linkValue (s : State) : Word := BitVec.ofNat 16 (s.pc.toNat + 2)

/-- `halt(reason, …)`: Running becomes Halted and the record is written (40_execution_cycle.md R95). Nothing else
changes: no handler, no saved state, no mode (60_exceptions.md R153; log 2). -/
def State.haltWith (s : State) (h : HaltRecord) : State := { s with run := .halted, halt := h }

/-- The record of an instruction that halts the core, from the state it started in; fields not named are 0
(40_execution_cycle.md R95). -/
def State.haltRecord (s : State) (reason : HaltReason) : HaltRecord :=
  { HaltRecord.clear with reason := reason, faultPc := s.pc, faultWord := s.wordAtPc }

/-- The configured `STEP_LIMIT` (00_scope.md R8). -/
def State.stepLimit (s : State) : Option Nat := s.ceiling.map StepCeiling.limit

/-- One more completed instruction counted (40_execution_cycle.md R92). -/
def StepCeiling.count (c : StepCeiling) : StepCeiling := { c with steps := c.steps + 1 }

/-- Commit of `Continue(target)`: where a limit is set, the step counts (10_state.md R28; log 4); a target inside memory
(`0 <= target < MEM_SIZE`, the check of one byte) becomes pc, any other ends the run and leaves pc, with the writes
already made standing (40_execution_cycle.md R92). `before` is the state the instruction started in, `after` the one its effect left. -/
def commitContinue (before after : State) (target : Int) : State :=
  let counted := { after with ceiling := before.ceiling.map StepCeiling.count }
  if inBounds target 1 then { counted with pc := BitVec.ofInt 16 target }
  else counted.haltWith { before.haltRecord .endOfMemory with haltTarget := target }

/-- Commit of `Continue(pc + 2)` (40_execution_cycle.md R91). -/
def commitNext (before after : State) : State := commitContinue before after before.sequentialPc

/-- Commit of `Halt`, from `ecall 3` (40_execution_cycle.md R93). -/
def commitHalt (before : State) : State := before.haltWith (before.haltRecord .haltEcall)

/-- Commit of `Fault(OutOfBounds, a, n)`: `after` is `before`, but for the bytes `ecall 5` has already emitted
(40_execution_cycle.md R94; 44_load_store.md R138). -/
def commitOutOfBounds (before after : State) (a : Int) (n : Nat) : State :=
  after.haltWith { before.haltRecord .faultOutOfBounds with faultAddr := a, faultWidth := n }

end Sys2Proof.Machine
end

