-- ==== Sys2Proof/Machine/Operands.lean ====
section
/-! DEFINITION. Every operand form: how an immediate or offset field becomes a value, and how an address or target is
formed, as exact integers that never wrap (30_encoding.md R71 to R76; 44_load_store.md R130). -/

namespace Sys2Proof.Machine

/-- `trunc16` (00_scope.md R10). -/
def trunc16 (n : Int) : Word := BitVec.ofInt 16 n

/-- imm7 of `addi` and `slti`, sign-extended to 16 bits (30_encoding.md R72). -/
def immSigned (imm7 : BitVec 7) : Word := imm7.signExtend 16

/-- imm7 of `andi`, `ori` and `xori`, zero-extended to 16 bits (30_encoding.md R72). -/
def immUnsigned (imm7 : BitVec 7) : Word := imm7.setWidth 16

/-- The shift amount of `slli`, `srli` and `srai`: the low 4 bits of imm7 (30_encoding.md R72). -/
def immShift (imm7 : BitVec 7) : Nat := (imm7.extractLsb' 0 4).toNat

/-- The shift amount of `sll`, `srl` and `sra`: the low 4 bits of the register (41_r_type.md R101). -/
def regShift (v : Word) : Nat := (v.extractLsb' 0 4).toNat

/-- `boff = sext_5(offset4 : 0)` (30_encoding.md R71). -/
def branchOffset (offset4 : BitVec 4) : Word := (offset4 ++ 0#1).signExtend 16

/-- `lsoff = sext_4(offset4)` (30_encoding.md R73). -/
def loadStoreOffset (offset4 : BitVec 4) : Word := offset4.signExtend 16

/-- `joff = sext_14(offset13 : 0)` (30_encoding.md R74). -/
def jalOffset (offset13 : BitVec 13) : Word := (offset13 ++ 0#1).signExtend 16

/-- `jroff = sext_7(offset7)` (30_encoding.md R75). -/
def jalrOffset (offset7 : BitVec 7) : Word := offset7.signExtend 16

/-- `uimm = imm12 : 0b0000` (30_encoding.md R76). -/
def upperImmediate (imm12 : BitVec 12) : Word := imm12 ++ 0#4

/-- `ea = uint(x[rs1]) + sint(lsoff)`, exact (44_load_store.md R130; 20_memory.md R47). -/
def effectiveAddress (base : Word) (offset4 : BitVec 4) : Int := base.toNat + (loadStoreOffset offset4).toInt

/-- A branch's target, `pc + sint(boff)`, exact (43_branch.md R122). -/
def branchTarget (pc : Word) (offset4 : BitVec 4) : Int := pc.toNat + (branchOffset offset4).toInt

/-- `jal`'s target, `pc + sint(joff)`, exact (45_jal.md R139). -/
def jalTarget (pc : Word) (offset13 : BitVec 13) : Int := pc.toNat + (jalOffset offset13).toInt

/-- `jalr`'s target: `x[rs1] + sint(jroff)`, exact, less its remainder by 2 (46_jalr.md R142). -/
def jalrTarget (base : Word) (offset7 : BitVec 7) : Int :=
  let t := (base.toNat : Int) + (jalrOffset offset7).toInt
  t - t % 2

/-- `sext_8` of a loaded byte (44_load_store.md R134). -/
def byteSigned (b : Byte) : Word := b.signExtend 16

/-- `zext_8` of a loaded byte (44_load_store.md R136). -/
def byteUnsigned (b : Byte) : Word := b.setWidth 16

/-- `ECALL_REG`, the register the ecall services read: the spec decides x6 (48_sys.md R147; D21; log 8). -/
def ecallReg : Reg := .x6

end Sys2Proof.Machine
end

