-- ==== Sys2Proof/Machine/Flags.lean ====
section
/-! DEFINITION. The core has no flags (10_state.md R22): an instruction that compares does so on two words, and
branches on the outcome or writes it as 0 or 1. These are the comparisons. -/

namespace Sys2Proof.Machine

/-- `sint(a) < sint(b)` (41_r_type.md R110; 43_branch.md R125). -/
def signedLess (a b : Word) : Bool := decide (a.toInt < b.toInt)

/-- `uint(a) < uint(b)` (41_r_type.md R111; 43_branch.md R127). -/
def unsignedLess (a b : Word) : Bool := decide (a.toNat < b.toNat)

/-- A comparison's outcome as a word, 0x0001 or 0x0000 (41_r_type.md R110, R111; 42_i_type.md R121). -/
def truthWord (c : Bool) : Word := if c then 1#16 else 0#16

end Sys2Proof.Machine
end

