-- ==== Sys2Proof/Machine/Branch.lean ====
section
/-! DEFINITION. The conditional branches (43_branch.md). -/

namespace Sys2Proof.Machine

/-- `Continue(pc + sint(boff))` where the condition on `x[rs1]`, `x[rs2]` holds, else `Continue(pc + 2)`; no register
and no memory is written (43_branch.md R122). -/
def branchOn (cond : Word → Word → Bool) (rs1 rs2 : Reg) (offset4 : BitVec 4) (s : State) : State :=
  commitContinue s s (if cond (s.reg rs1) (s.reg rs2) then branchTarget s.pc offset4 else s.sequentialPc)

/-- `beq` (43_branch.md R123). -/
def execBeq (rs1 rs2 : Reg) (offset4 : BitVec 4) (s : State) : Host.Outcome State Fault Refusal :=
  .next (branchOn (fun a b => decide (a = b)) rs1 rs2 offset4 s)

/-- `bne` (43_branch.md R124). -/
def execBne (rs1 rs2 : Reg) (offset4 : BitVec 4) (s : State) : Host.Outcome State Fault Refusal :=
  .next (branchOn (fun a b => decide (a ≠ b)) rs1 rs2 offset4 s)

/-- `blt` (43_branch.md R125). -/
def execBlt (rs1 rs2 : Reg) (offset4 : BitVec 4) (s : State) : Host.Outcome State Fault Refusal :=
  .next (branchOn signedLess rs1 rs2 offset4 s)

/-- `bge` (43_branch.md R126). -/
def execBge (rs1 rs2 : Reg) (offset4 : BitVec 4) (s : State) : Host.Outcome State Fault Refusal :=
  .next (branchOn (fun a b => !signedLess a b) rs1 rs2 offset4 s)

/-- `bltu` (43_branch.md R127). -/
def execBltu (rs1 rs2 : Reg) (offset4 : BitVec 4) (s : State) : Host.Outcome State Fault Refusal :=
  .next (branchOn unsignedLess rs1 rs2 offset4 s)

/-- `bgeu` (43_branch.md R128). -/
def execBgeu (rs1 rs2 : Reg) (offset4 : BitVec 4) (s : State) : Host.Outcome State Fault Refusal :=
  .next (branchOn (fun a b => !unsignedLess a b) rs1 rs2 offset4 s)

end Sys2Proof.Machine
end

