-- ==== Sys2Proof/Machine/Alu.lean ====
section
/-! DEFINITION. The arithmetic both the R and the I forms use: exact on integers, narrowed once at the end, no carry or
overflow recorded (41_r_type.md R100 to R112). -/

namespace Sys2Proof.Machine

/-- `trunc16(uint(a) + uint(b))` (41_r_type.md R102). -/
def aluAdd (a b : Word) : Word := trunc16 (a.toNat + b.toNat)

/-- `trunc16(uint(a) - uint(b))` (41_r_type.md R103). -/
def aluSub (a b : Word) : Word := trunc16 (a.toNat - b.toNat)

/-- `trunc16(uint(a) + sint(b))`, `addi`'s sum (42_i_type.md R114). -/
def aluAddSigned (a b : Word) : Word := trunc16 (a.toNat + b.toInt)

/-- Bitwise AND (41_r_type.md R104). -/
def aluAnd (a b : Word) : Word := a &&& b

/-- Bitwise OR (41_r_type.md R105). -/
def aluOr (a b : Word) : Word := a ||| b

/-- Bitwise XOR (41_r_type.md R106). -/
def aluXor (a b : Word) : Word := a ^^^ b

/-- `trunc16(uint(a) * 2^sh)` (41_r_type.md R107). -/
def aluSll (a : Word) (sh : Nat) : Word := trunc16 ((a.toNat * 2 ^ sh : Nat) : Int)

/-- `zext_16(floor(uint(a) / 2^sh))` (41_r_type.md R108). -/
def aluSrl (a : Word) (sh : Nat) : Word := BitVec.ofNat 16 (a.toNat / 2 ^ sh)

/-- `trunc16(floor(sint(a) / 2^sh))`: the division rounds toward minus infinity (41_r_type.md R109). -/
def aluSra (a : Word) (sh : Nat) : Word := trunc16 (a.toInt / ((2 ^ sh : Nat) : Int))

end Sys2Proof.Machine
end

