-- ==== Sys2Proof/Machine/IType.lean ====
section
/-! DEFINITION. The I-type instructions (42_i_type.md). -/

namespace Sys2Proof.Machine

/-- `x[rd] <- f(x[rd])`, then `Continue(pc + 2)` (42_i_type.md R113). -/
def immediateOp (f : Word → Word) (rd : Reg) (s : State) : State := commitNext s (s.setReg rd (f (s.reg rd)))

/-- `addi` (42_i_type.md R114). -/
def execAddi (rd : Reg) (imm7 : BitVec 7) (s : State) : Host.Outcome State Fault Refusal :=
  .next (immediateOp (fun a => aluAddSigned a (immSigned imm7)) rd s)

/-- `andi` (42_i_type.md R115). -/
def execAndi (rd : Reg) (imm7 : BitVec 7) (s : State) : Host.Outcome State Fault Refusal :=
  .next (immediateOp (fun a => aluAnd a (immUnsigned imm7)) rd s)

/-- `ori` (42_i_type.md R116). -/
def execOri (rd : Reg) (imm7 : BitVec 7) (s : State) : Host.Outcome State Fault Refusal :=
  .next (immediateOp (fun a => aluOr a (immUnsigned imm7)) rd s)

/-- `xori` (42_i_type.md R117). -/
def execXori (rd : Reg) (imm7 : BitVec 7) (s : State) : Host.Outcome State Fault Refusal :=
  .next (immediateOp (fun a => aluXor a (immUnsigned imm7)) rd s)

/-- `slli` (42_i_type.md R118). -/
def execSlli (rd : Reg) (imm7 : BitVec 7) (s : State) : Host.Outcome State Fault Refusal :=
  .next (immediateOp (fun a => aluSll a (immShift imm7)) rd s)

/-- `srli` (42_i_type.md R119). -/
def execSrli (rd : Reg) (imm7 : BitVec 7) (s : State) : Host.Outcome State Fault Refusal :=
  .next (immediateOp (fun a => aluSrl a (immShift imm7)) rd s)

/-- `srai` (42_i_type.md R120). -/
def execSrai (rd : Reg) (imm7 : BitVec 7) (s : State) : Host.Outcome State Fault Refusal :=
  .next (immediateOp (fun a => aluSra a (immShift imm7)) rd s)

/-- `slti` (42_i_type.md R121). -/
def execSlti (rd : Reg) (imm7 : BitVec 7) (s : State) : Host.Outcome State Fault Refusal :=
  .next (immediateOp (fun a => truthWord (signedLess a (immSigned imm7))) rd s)

end Sys2Proof.Machine
end

