-- ==== Sys2Proof/Machine/Jump.lean ====
section
/-! DEFINITION. `jal`, `jalr` and `lui` (45_jal.md, 46_jalr.md, 47_lui.md). -/

namespace Sys2Proof.Machine

/-- Write the link, then `Continue(target)`; the target was formed before the write, and the link stands even where
the target ends the run (40_execution_cycle.md R92). -/
def linkAndGo (rd : Reg) (target : Int) (s : State) : State := commitContinue s (s.setReg rd s.linkValue) target

/-- `jal` (45_jal.md R139). -/
def execJal (rd : Reg) (offset13 : BitVec 13) (s : State) : Host.Outcome State Fault Refusal :=
  .next (linkAndGo rd (jalTarget s.pc offset13) s)

/-- `jalr`: the base is read before the link is written (46_jalr.md R142, R143). -/
def execJalr (rd rs1 : Reg) (offset7 : BitVec 7) (s : State) : Host.Outcome State Fault Refusal :=
  .next (linkAndGo rd (jalrTarget (s.reg rs1) offset7) s)

/-- `lui` (47_lui.md R145). -/
def execLui (rd : Reg) (imm12 : BitVec 12) (s : State) : Host.Outcome State Fault Refusal :=
  .next (commitNext s (s.setReg rd (upperImmediate imm12)))

end Sys2Proof.Machine
end

