-- ==== Sys2Proof/Machine/LoadStore.lean ====
section
/-! DEFINITION. The loads and stores (44_load_store.md). A failed bounds check writes nothing and halts with
`FAULT_OUT_OF_BOUNDS` (44_load_store.md R138). -/

namespace Sys2Proof.Machine

/-- What a load does with the bytes it read, or with a failed check of `n` bytes (44_load_store.md R130, R131). -/
def finishLoad (rd : Reg) (ea : Int) (n : Nat) (loaded : Option Word) (s : State) : State :=
  match loaded with
  | some v => commitNext s (s.setReg rd v)
  | none => commitOutOfBounds s s ea n

/-- A 1-byte load, extended as `ext` says. -/
def loadByte (ext : Byte → Word) (rd rs1 : Reg) (offset4 : BitVec 4) (s : State) : State :=
  let ea := effectiveAddress (s.reg rs1) offset4
  finishLoad rd ea 1 ((s.mem.read1 ea).map ext) s

/-- A 2-byte load. -/
def loadHalf (rd rs1 : Reg) (offset4 : BitVec 4) (s : State) : State :=
  let ea := effectiveAddress (s.reg rs1) offset4
  finishLoad rd ea 2 (s.mem.read2 ea) s

/-- What a store leaves, or what its failed check of `n` bytes does (44_load_store.md R130). -/
def finishStore (ea : Int) (n : Nat) (stored : Option Memory) (s : State) : State :=
  match stored with
  | some m => commitNext s { s with mem := m }
  | none => commitOutOfBounds s s ea n

/-- `sb` (44_load_store.md R132). -/
def execSb (rs2 rs1 : Reg) (offset4 : BitVec 4) (s : State) : Host.Outcome State Fault Refusal :=
  let ea := effectiveAddress (s.reg rs1) offset4
  .next (finishStore ea 1 (s.mem.write1 ea (lowByte (s.reg rs2))) s)

/-- `sw` (44_load_store.md R133). -/
def execSw (rs2 rs1 : Reg) (offset4 : BitVec 4) (s : State) : Host.Outcome State Fault Refusal :=
  let ea := effectiveAddress (s.reg rs1) offset4
  .next (finishStore ea 2 (s.mem.write2 ea (s.reg rs2)) s)

/-- `lb` (44_load_store.md R134). -/
def execLb (rd rs1 : Reg) (offset4 : BitVec 4) (s : State) : Host.Outcome State Fault Refusal :=
  .next (loadByte byteSigned rd rs1 offset4 s)

/-- `lw` (44_load_store.md R135). -/
def execLw (rd rs1 : Reg) (offset4 : BitVec 4) (s : State) : Host.Outcome State Fault Refusal :=
  .next (loadHalf rd rs1 offset4 s)

/-- `lbu` (44_load_store.md R136). -/
def execLbu (rd rs1 : Reg) (offset4 : BitVec 4) (s : State) : Host.Outcome State Fault Refusal :=
  .next (loadByte byteUnsigned rd rs1 offset4 s)

/-- `lwu`, whose effect equals `lw`'s (44_load_store.md R137). -/
def execLwu (rd rs1 : Reg) (offset4 : BitVec 4) (s : State) : Host.Outcome State Fault Refusal :=
  .next (loadHalf rd rs1 offset4 s)

end Sys2Proof.Machine
end

