-- ==== Sys2Proof/Machine/RType.lean ====
section
/-! DEFINITION. The R-type instructions (41_r_type.md). -/

namespace Sys2Proof.Machine

/-- `x[rd] <- x[rd] op x[rs2]`, both read before the write, then `Continue(pc + 2)` (41_r_type.md R100). -/
def registerOp (op : Word → Word → Word) (rd rs2 : Reg) (s : State) : State :=
  commitNext s (s.setReg rd (op (s.reg rd) (s.reg rs2)))

/-- `add` (41_r_type.md R102). -/
def execAdd (rd rs2 : Reg) (s : State) : Host.Outcome State Fault Refusal := .next (registerOp aluAdd rd rs2 s)

/-- `sub` (41_r_type.md R103). -/
def execSub (rd rs2 : Reg) (s : State) : Host.Outcome State Fault Refusal := .next (registerOp aluSub rd rs2 s)

/-- `and` (41_r_type.md R104). -/
def execAnd (rd rs2 : Reg) (s : State) : Host.Outcome State Fault Refusal := .next (registerOp aluAnd rd rs2 s)

/-- `or` (41_r_type.md R105). -/
def execOr (rd rs2 : Reg) (s : State) : Host.Outcome State Fault Refusal := .next (registerOp aluOr rd rs2 s)

/-- `xor` (41_r_type.md R106). -/
def execXor (rd rs2 : Reg) (s : State) : Host.Outcome State Fault Refusal := .next (registerOp aluXor rd rs2 s)

/-- `sll` (41_r_type.md R101, R107). -/
def execSll (rd rs2 : Reg) (s : State) : Host.Outcome State Fault Refusal :=
  .next (registerOp (fun a b => aluSll a (regShift b)) rd rs2 s)

/-- `srl` (41_r_type.md R101, R108). -/
def execSrl (rd rs2 : Reg) (s : State) : Host.Outcome State Fault Refusal :=
  .next (registerOp (fun a b => aluSrl a (regShift b)) rd rs2 s)

/-- `sra` (41_r_type.md R101, R109). -/
def execSra (rd rs2 : Reg) (s : State) : Host.Outcome State Fault Refusal :=
  .next (registerOp (fun a b => aluSra a (regShift b)) rd rs2 s)

/-- `slt` (41_r_type.md R110). -/
def execSlt (rd rs2 : Reg) (s : State) : Host.Outcome State Fault Refusal :=
  .next (registerOp (fun a b => truthWord (signedLess a b)) rd rs2 s)

/-- `sltu` (41_r_type.md R111). -/
def execSltu (rd rs2 : Reg) (s : State) : Host.Outcome State Fault Refusal :=
  .next (registerOp (fun a b => truthWord (unsignedLess a b)) rd rs2 s)

end Sys2Proof.Machine
end

