-- ==== Sys2Proof/Machine/Sys.lean ====
section
/-! DEFINITION. The system calls (48_sys.md). None writes a register or a memory byte (48_sys.md R147). -/

namespace Sys2Proof.Machine

/-- An unknown service: `emit Diag(n)`, then `Continue(pc + 2)` (48_sys.md R151). -/
def unknownService (n : BitVec 3) (s : State) : State := commitNext s (s.emit [.diag n])

/-- `ecall 1`, print integer (48_sys.md R148). -/
def execEcallPrintInt (s : State) : Host.Outcome State Fault Refusal :=
  .next (commitNext s (s.emit [.printInt (s.reg ecallReg)]))

/-- `ecall 3`, halt (48_sys.md R149; 40_execution_cycle.md R93). -/
def execEcallHalt (s : State) : Host.Outcome State Fault Refusal := .next (commitHalt s)

/-- The string of `ecall 5` and whether its NUL was found below the top of memory (48_sys.md R150). -/
def stringAtEcallReg (s : State) : List Byte × Bool :=
  s.mem.scan (Config.memSize - (s.reg ecallReg).toNat) (s.reg ecallReg).toNat

/-- `ecall 5`, print string: one event a byte, the NUL not emitted; without a NUL the read of 65536 faults and the
events stay (48_sys.md R150). -/
def execEcallPrintString (s : State) : Host.Outcome State Fault Refusal :=
  let printed := s.emit ((stringAtEcallReg s).1.map .printByte)
  .next (if (stringAtEcallReg s).2 then commitNext s printed else commitOutOfBounds s printed Config.memSize 1)

/-- `ecall 0` (48_sys.md R151). -/
def execEcallUnknown0 (s : State) : Host.Outcome State Fault Refusal := .next (unknownService 0#3 s)

/-- `ecall 2` (48_sys.md R151). -/
def execEcallUnknown2 (s : State) : Host.Outcome State Fault Refusal := .next (unknownService 2#3 s)

/-- `ecall 4` (48_sys.md R151). -/
def execEcallUnknown4 (s : State) : Host.Outcome State Fault Refusal := .next (unknownService 4#3 s)

/-- `ecall 6` (48_sys.md R151). -/
def execEcallUnknown6 (s : State) : Host.Outcome State Fault Refusal := .next (unknownService 6#3 s)

/-- `ecall 7` (48_sys.md R151). -/
def execEcallUnknown7 (s : State) : Host.Outcome State Fault Refusal := .next (unknownService 7#3 s)

end Sys2Proof.Machine
end

