-- ==== Sys2Proof/Machine/Dispatch.lean ====
section
/-! DEFINITION. One arm per instruction: its meaning, called directly. -/

namespace Sys2Proof.Machine

def exec (i : Instr) (s : State) : Host.Outcome State Fault Refusal :=
  match i with
  | .add rd rs2 => Sys2Proof.Machine.execAdd rd rs2 s
  | .sub rd rs2 => Sys2Proof.Machine.execSub rd rs2 s
  | .and rd rs2 => Sys2Proof.Machine.execAnd rd rs2 s
  | .or rd rs2 => Sys2Proof.Machine.execOr rd rs2 s
  | .xor rd rs2 => Sys2Proof.Machine.execXor rd rs2 s
  | .sll rd rs2 => Sys2Proof.Machine.execSll rd rs2 s
  | .srl rd rs2 => Sys2Proof.Machine.execSrl rd rs2 s
  | .sra rd rs2 => Sys2Proof.Machine.execSra rd rs2 s
  | .slt rd rs2 => Sys2Proof.Machine.execSlt rd rs2 s
  | .sltu rd rs2 => Sys2Proof.Machine.execSltu rd rs2 s
  | .addi rd imm7 => Sys2Proof.Machine.execAddi rd imm7 s
  | .andi rd imm7 => Sys2Proof.Machine.execAndi rd imm7 s
  | .ori rd imm7 => Sys2Proof.Machine.execOri rd imm7 s
  | .xori rd imm7 => Sys2Proof.Machine.execXori rd imm7 s
  | .slli rd imm7 => Sys2Proof.Machine.execSlli rd imm7 s
  | .srli rd imm7 => Sys2Proof.Machine.execSrli rd imm7 s
  | .srai rd imm7 => Sys2Proof.Machine.execSrai rd imm7 s
  | .slti rd imm7 => Sys2Proof.Machine.execSlti rd imm7 s
  | .beq rs1 rs2 offset4 => Sys2Proof.Machine.execBeq rs1 rs2 offset4 s
  | .bne rs1 rs2 offset4 => Sys2Proof.Machine.execBne rs1 rs2 offset4 s
  | .blt rs1 rs2 offset4 => Sys2Proof.Machine.execBlt rs1 rs2 offset4 s
  | .bge rs1 rs2 offset4 => Sys2Proof.Machine.execBge rs1 rs2 offset4 s
  | .bltu rs1 rs2 offset4 => Sys2Proof.Machine.execBltu rs1 rs2 offset4 s
  | .bgeu rs1 rs2 offset4 => Sys2Proof.Machine.execBgeu rs1 rs2 offset4 s
  | .sb rs2 rs1 offset4 => Sys2Proof.Machine.execSb rs2 rs1 offset4 s
  | .sw rs2 rs1 offset4 => Sys2Proof.Machine.execSw rs2 rs1 offset4 s
  | .lb rd rs1 offset4 => Sys2Proof.Machine.execLb rd rs1 offset4 s
  | .lw rd rs1 offset4 => Sys2Proof.Machine.execLw rd rs1 offset4 s
  | .lbu rd rs1 offset4 => Sys2Proof.Machine.execLbu rd rs1 offset4 s
  | .lwu rd rs1 offset4 => Sys2Proof.Machine.execLwu rd rs1 offset4 s
  | .jal rd offset13 => Sys2Proof.Machine.execJal rd offset13 s
  | .jalr rd rs1 offset7 => Sys2Proof.Machine.execJalr rd rs1 offset7 s
  | .lui rd imm12 => Sys2Proof.Machine.execLui rd imm12 s
  | .ecallPrintInt => Sys2Proof.Machine.execEcallPrintInt s
  | .ecallHalt => Sys2Proof.Machine.execEcallHalt s
  | .ecallPrintString => Sys2Proof.Machine.execEcallPrintString s
  | .ecallUnknown0 => Sys2Proof.Machine.execEcallUnknown0 s
  | .ecallUnknown2 => Sys2Proof.Machine.execEcallUnknown2 s
  | .ecallUnknown4 => Sys2Proof.Machine.execEcallUnknown4 s
  | .ecallUnknown6 => Sys2Proof.Machine.execEcallUnknown6 s
  | .ecallUnknown7 => Sys2Proof.Machine.execEcallUnknown7 s

end Sys2Proof.Machine
end

