-- ==== Sys2Proof/Machine/Cycle.lean ====
section
/-! DEFINITION. The fetch-decode-execute cycle (40_execution_cycle.md), over any decoder: `DECODE_TABLE` is a parameter
(92_eei_decisions.md D33; log 9). -/

namespace Sys2Proof.Machine

/-- `STEP_LIMIT = L` and `steps >= L` (40_execution_cycle.md R88). -/
def State.limitReached (s : State) : Bool :=
  match s.ceiling with
  | some c => decide (c.limit ≤ c.steps)
  | none => false

/-- The halt of the step limit, before any fetch: `fault_pc` alone is recorded (40_execution_cycle.md R88). -/
def haltAtLimit (s : State) : State := s.haltWith { HaltRecord.clear with reason := .stepLimit, faultPc := s.pc }

/-- `w <- MemRead(pc, 2)` (40_execution_cycle.md R89; at an odd pc, log 14). -/
def State.fetch (s : State) : Option Word := s.mem.read2 s.pc.toNat

/-- The halt of a fetch that fails its bounds check, which no run from reset reaches (92_eei_decisions.md D32; no word
was fetched, so `fault_word` is 0: log 6). -/
def haltAtFetch (s : State) : State :=
  s.haltWith { HaltRecord.clear with reason := .faultOutOfBounds, faultPc := s.pc, faultAddr := s.pc.toNat, faultWidth := 2 }

/-- The halt of a decode error: `fault_pc` and the raw word (40_execution_cycle.md R90; 60_exceptions.md R154; for an
unknown opcode, log 7). -/
def haltAtDecode (e : DecodeError) (s : State) : State :=
  match e with
  | .unknownFunct w =>
    s.haltWith { HaltRecord.clear with reason := .decodeUnknownFunct, faultPc := s.pc, faultWord := w }
  | .unknownOpcode w =>
    s.haltWith { HaltRecord.clear with reason := .decodeUnknownOpcode, faultPc := s.pc, faultWord := w }

/-- The step from fetch on. -/
def fetchAndRun (dec : Word → DecodeResult) (s : State) : Host.Outcome State Fault Refusal :=
  match s.fetch with
  | none => .next (haltAtFetch s)
  | some w =>
    match dec w with
    | .error e => .next (haltAtDecode e s)
    | .ok i => exec i s

/-- The whole step: the checks in the order of 60_exceptions.md R158. A halted core takes none
(40_execution_cycle.md R87, R95; log 1). -/
def cycle (dec : Word → DecodeResult) (s : State) : Host.Outcome State Fault Refusal :=
  match s.run with
  | .halted => .fault .halted
  | .running => if s.limitReached then .next (haltAtLimit s) else fetchAndRun dec s

/-- `s` with the two bytes of `w` stored where the next fetch reads; nothing where that place is outside memory. -/
def placeWordAtPc (s : State) (w : Word) : State :=
  match s.mem.write2 s.pc.toNat w with
  | some m => { s with mem := m }
  | none => s

end Sys2Proof.Machine
end

