-- ==== Sys2Proof/Machine/Step.lean ====
section
/-! DEFINITION. One step of the core, with the default decode table (40_execution_cycle.md R86, R95). -/

namespace Sys2Proof.Machine

/-- One fetch, decode, execute, commit step (40_execution_cycle.md R95; log 15). -/
def step (s : State) : Host.Outcome State Fault Refusal := cycle decode s

/-- `s` with the `nbits`-bit table word `w` stored at pc, where `step` fetches (20_memory.md R44; log 11). -/
def State.withFetchWord (s : State) (nbits w : Nat) : State := placeWordAtPc s (tableWord nbits w)

end Sys2Proof.Machine
end

