-- ==== Sys2Proof/Machine/Boot.lean ====
section
/-! DEFINITION. The launch state: the loader's effect on memory (70_reset_and_hazards.md R168, R169). -/

namespace Sys2Proof.Machine

/-- The bytes of a file, from address `a` up to the top of memory; the rest of the file is dropped, and a zero byte is
what memory holds anyway (70_reset_and_hazards.md R169; 92_eei_decisions.md D34). -/
def loadFrom : (a : Nat) → (file : List Byte) → Memory
  | _, [] => []
  | a, b :: file =>
    if a < Config.memSize then
      if b = Config.unlistedByte then loadFrom (a + 1) file else (a, b) :: loadFrom (a + 1) file
    else []

/-- Byte `i` of the file at `M[i]` (70_reset_and_hazards.md R169). -/
def loadImage (file : List Byte) : Memory := loadFrom 0 file

/-- The state before the first step, with a file loaded and a step limit configured, whose counter starts at 0
(70_reset_and_hazards.md R168, R169; 10_state.md R32, R33; log 11). -/
def State.boot (limit : Option Nat) (file : List Byte) : State :=
  { State.reset with mem := loadImage file, ceiling := limit.map fun l => { limit := l, steps := 0 } }

end Sys2Proof.Machine
end

