-- ==== Sys2Proof/Machine/HostView.lean ====
section
/-! DEFINITION. What the host does with what the core hands it: the codes of the halt reasons, the exit status and the
rendering of events (60_exceptions.md R155, R156; 48_sys.md R152). Host behaviour, not core state: no step reads this
file (00_scope.md R6; log 13). -/

namespace Sys2Proof.Machine

/-- The numeric code of a halt reason (60_exceptions.md R155). -/
def HaltReason.code : HaltReason → Nat
  | .none => 0
  | .haltEcall => 1
  | .endOfMemory => 2
  | .faultOutOfBounds => 3
  | .decodeUnknownFunct => 4
  | .decodeUnknownOpcode => 5
  | .stepLimit => 6

/-- The process exit status for a halted run: 0 for the two normal halts, the host's own choice for codes 3 to 6, none
while Running (60_exceptions.md R156). -/
def HaltReason.exitStatus : HaltReason → Option Nat
  | .none => Option.none
  | .haltEcall => some 0
  | .endOfMemory => some 0
  | .faultOutOfBounds => some (Config.hostExitCode (HaltReason.code .faultOutOfBounds))
  | .decodeUnknownFunct => some (Config.hostExitCode (HaltReason.code .decodeUnknownFunct))
  | .decodeUnknownOpcode => some (Config.hostExitCode (HaltReason.code .decodeUnknownOpcode))
  | .stepLimit => some (Config.hostExitCode (HaltReason.code .stepLimit))

/-- A piece of standard output: the text of an integer, or one raw byte. -/
inductive Piece where
  | text (t : String)
  | raw (b : Byte)
  deriving DecidableEq, Repr

/-- What standard output gets for an event: the signed decimal form, the raw byte, or nothing for a diagnostic, whose
text on the error channel is the host's (48_sys.md R152). -/
def Event.stdout : Event → Option Piece
  | .printInt v => some (.text (toString v.toInt))
  | .printByte b => some (.raw b)
  | .diag _ => Option.none

/-- The program's standard output: the printed events in order (48_sys.md R152). -/
def stdout (out : List Event) : List Piece := out.filterMap Event.stdout

end Sys2Proof.Machine
end

