-- ==== Sys2Proof/Safety.lean ====
section
/-! DEFINITION. The terms the claims are stated in: what holds of every reachable state, what an instruction leaves
alone, where a run goes next, and the shape of the claim about each instruction family. They are written from the rules,
with plain integer arithmetic, and not from the machine's own operand and arithmetic functions. -/

namespace Sys2Proof.Safety

open Sys2Proof.Machine

/-! ### States -/

/-- What every reachable state satisfies: pc even (10_state.md R34), memory in its canonical form, the record clear
while Running, and once Halted a reason and the address pc stands at (10_state.md R25; 40_execution_cycle.md R92 to R94). -/
structure Consistent (s : State) : Prop where
  pcEven : s.pc.toNat % 2 = 0
  memoryCanonical : s.mem.wf = true
  runningClear : s.run = .running → s.halt = HaltRecord.clear
  haltedSays : s.run = .halted →
    s.halt.reason ≠ .none ∧ s.halt.reason ≠ .decodeUnknownOpcode ∧ s.halt.faultPc = s.pc

/-- The step limit does not stop the next step (40_execution_cycle.md R88). -/
def BelowLimit (s : State) : Prop := ∀ c, s.ceiling = some c → c.steps < c.limit

/-- The little-endian word at an address (20_memory.md R44). -/
def wordAt (m : Memory) (a : Nat) : Word := m.read (a + 1) ++ m.read a

/-- The state can fetch: Running, below the limit, both bytes of the word inside memory (40_execution_cycle.md R87 to
R89). -/
structure CanFetch (s : State) : Prop where
  running : s.run = .running
  belowLimit : BelowLimit s
  pcInside : s.pc.toNat + 2 ≤ 65536

/-! ### Frames -/

/-- Every register but `rd` holds what it held. -/
def OnlyRegister (rd : Reg) (s t : State) : Prop := ∀ r, r ≠ rd → t.reg r = s.reg r

/-- Every register holds what it held. -/
def NoRegister (s t : State) : Prop := ∀ r, t.reg r = s.reg r

/-- Every byte of memory reads as it did. -/
def MemoryKept (s t : State) : Prop := ∀ a, t.mem.read a = s.mem.read a

/-- Every byte of memory outside the `n` bytes from `ea` on reads as it did. -/
def MemoryKeptOutside (ea : Int) (n : Nat) (s t : State) : Prop :=
  ∀ a : Nat, ((a : Int) < ea ∨ ea + n ≤ a) → t.mem.read a = s.mem.read a

/-- No event is emitted and the configured limit stands. -/
def NoEvent (s t : State) : Prop := t.out = s.out ∧ t.stepLimit = s.stepLimit

/-! ### Where the run goes -/

/-- A target inside memory becomes pc, and the run state and halt record stand (40_execution_cycle.md R91, R92). -/
def GoesTo (target : Int) (s t : State) : Prop :=
  0 ≤ target → target < 65536 → (t.pc.toNat : Int) = target ∧ t.run = s.run ∧ t.halt = s.halt

/-- A target outside memory ends the run with `END_OF_MEMORY` (40_execution_cycle.md R92). -/
def EndsBeyond (target : Int) (t : State) : Prop :=
  ¬(0 ≤ target ∧ target < 65536) → t.run = .halted ∧ t.halt.reason = .endOfMemory

/-- The whole commit of `Continue(target)` (40_execution_cycle.md R92); the step counter exists only where a limit is set
(10_state.md R28; 60_exceptions.md R163). -/
def Committed (target : Int) (s t : State) : Prop :=
  t.ceiling = s.ceiling.map (fun c => { c with steps := c.steps + 1 }) ∧
  (0 ≤ target ∧ target < 65536 → (t.pc.toNat : Int) = target ∧ t.run = s.run ∧ t.halt = s.halt) ∧
  (¬(0 ≤ target ∧ target < 65536) → t.pc = s.pc ∧ t.run = .halted ∧
    t.halt = { reason := .endOfMemory, faultPc := s.pc, faultWord := wordAt s.mem s.pc.toNat,
               faultAddr := 0, faultWidth := 0, haltTarget := target })

/-- A memory access that fails its check: Halted for that access, pc, registers and memory as they were, nothing
emitted (44_load_store.md R138). -/
def OutOfBoundsHalt (ea : Int) (n : Nat) (s t : State) : Prop :=
  t.run = .halted ∧ t.halt.reason = .faultOutOfBounds ∧ t.halt.faultAddr = ea ∧ t.halt.faultWidth = n ∧
  t.pc = s.pc ∧ NoRegister s t ∧ MemoryKept s t ∧ NoEvent s t

/-- An `n`-byte access at `ea` is admitted (20_memory.md R46). -/
def Admitted (ea : Int) (n : Nat) : Prop := 0 ≤ ea ∧ ea + n ≤ 65536

/-- The effective address, exact (44_load_store.md R130). -/
def loadStoreAddress (s : State) (rs1 : Reg) (offset4 : BitVec 4) : Int := (s.reg rs1).toNat + offset4.toInt

/-- `jalr`'s target: base plus signed offset, exact, less its remainder by 2 (46_jalr.md R142). -/
def jalrGoal (s : State) (rs1 : Reg) (offset7 : BitVec 7) : Int :=
  ((s.reg rs1).toNat + offset7.toInt) - ((s.reg rs1).toNat + offset7.toInt) % 2

/-! ### The claim about a family -/

/-- A field of `n` bits standing from bit `lo` of a word up. -/
def field {n : Nat} (b : BitVec n) (lo : Nat) : Word := b.setWidth 16 <<< lo

/-- An R form: its word, and in every state it completes, `x[rd]` related by `val` to the old `x[rd]` and `x[rs2]`,
all else as it was, going on to `pc + 2` (41_r_type.md R100). The selector value in each rule's word goes back to the
spec's decision D4. -/
def RForm (mk : Reg → Reg → Instr) (base : Word) (val : Word → Word → Word → Prop) : Prop :=
  ∀ (rd rs2 : Reg) (s : State),
    encode (mk rd rs2) = base ||| field rs2.bits 9 ||| field rd.bits 6 ∧
    ∃ t, exec (mk rd rs2) s = .next t ∧ val (s.reg rd) (s.reg rs2) (t.reg rd) ∧
      OnlyRegister rd s t ∧ MemoryKept s t ∧ NoEvent s t ∧ GoesTo (s.pc.toNat + 2) s t

/-- An I form: its word, and in every state it completes, `x[rd]` related by `val` to the old `x[rd]` and the field,
all else as it was, going on to `pc + 2` (42_i_type.md R113). The selector value in each rule's word goes back to the
spec's decision D6. -/
def IForm (mk : Reg → BitVec 7 → Instr) (base : Word) (val : Word → BitVec 7 → Word → Prop) : Prop :=
  ∀ (rd : Reg) (imm7 : BitVec 7) (s : State),
    encode (mk rd imm7) = field imm7 9 ||| field rd.bits 6 ||| base ∧
    ∃ t, exec (mk rd imm7) s = .next t ∧ val (s.reg rd) imm7 (t.reg rd) ∧
      OnlyRegister rd s t ∧ MemoryKept s t ∧ NoEvent s t ∧ GoesTo (s.pc.toNat + 2) s t

/-- A branch: its word, and in every state it completes, writes nothing and goes on to pc plus twice its signed offset
field where the condition holds, else to `pc + 2` (43_branch.md R122). The selector value, the offset's zero low bit and
the operand order go back to the spec's decisions D7, D8 and D9. -/
def BranchForm (mk : Reg → Reg → BitVec 4 → Instr) (base : Word) (cond : Word → Word → Prop) : Prop :=
  ∀ (rs1 rs2 : Reg) (offset4 : BitVec 4) (s : State),
    encode (mk rs1 rs2 offset4) = field offset4 12 ||| field rs2.bits 9 ||| field rs1.bits 6 ||| base ∧
    ∃ t, exec (mk rs1 rs2 offset4) s = .next t ∧ NoRegister s t ∧ MemoryKept s t ∧ NoEvent s t ∧
      (cond (s.reg rs1) (s.reg rs2) → GoesTo (s.pc.toNat + 2 * offset4.toInt) s t) ∧
      (¬cond (s.reg rs1) (s.reg rs2) → GoesTo (s.pc.toNat + 2) s t)

/-- An `n`-byte load: its word, and where the access is admitted it completes, `x[rd]` related by `val` to memory at
the effective address, all else as it was, going on to `pc + 2`; elsewhere it halts out of bounds (44_load_store.md R130,
R138). The selector value, the destination field, the exact address and the outcome of a failed check go back to the
spec's decisions D10, D11, D13 and D14. -/
def LoadForm (mk : Reg → Reg → BitVec 4 → Instr) (base : Word) (n : Nat) (val : (Nat → Byte) → Nat → Word → Prop) : Prop :=
  ∀ (rd rs1 : Reg) (offset4 : BitVec 4) (s : State),
    encode (mk rd rs1 offset4) = field offset4 12 ||| field rd.bits 9 ||| field rs1.bits 6 ||| base ∧
    (Admitted (loadStoreAddress s rs1 offset4) n →
      ∃ t, exec (mk rd rs1 offset4) s = .next t ∧
        val s.mem.read (loadStoreAddress s rs1 offset4).toNat (t.reg rd) ∧
        OnlyRegister rd s t ∧ MemoryKept s t ∧ NoEvent s t ∧ GoesTo (s.pc.toNat + 2) s t) ∧
    (¬Admitted (loadStoreAddress s rs1 offset4) n →
      ∃ t, exec (mk rd rs1 offset4) s = .next t ∧ OutOfBoundsHalt (loadStoreAddress s rs1 offset4) n s t)

/-- An `n`-byte store: its word, and where the access is admitted it completes, memory at the effective address related
by `val` to the data register, every other byte and every register as it was, going on to `pc + 2`; elsewhere it halts
out of bounds (44_load_store.md R130, R138). The selector value, the exact address and the outcome of a failed check go
back to the spec's decisions D10, D13 and D14. -/
def StoreForm (mk : Reg → Reg → BitVec 4 → Instr) (base : Word) (n : Nat) (val : (Nat → Byte) → Nat → Word → Prop) : Prop :=
  ∀ (rs2 rs1 : Reg) (offset4 : BitVec 4) (s : State),
    encode (mk rs2 rs1 offset4) = field offset4 12 ||| field rs2.bits 9 ||| field rs1.bits 6 ||| base ∧
    (Admitted (loadStoreAddress s rs1 offset4) n →
      ∃ t, exec (mk rs2 rs1 offset4) s = .next t ∧
        val t.mem.read (loadStoreAddress s rs1 offset4).toNat (s.reg rs2) ∧
        MemoryKeptOutside (loadStoreAddress s rs1 offset4) n s t ∧
        NoRegister s t ∧ NoEvent s t ∧ GoesTo (s.pc.toNat + 2) s t) ∧
    (¬Admitted (loadStoreAddress s rs1 offset4) n →
      ∃ t, exec (mk rs2 rs1 offset4) s = .next t ∧ OutOfBoundsHalt (loadStoreAddress s rs1 offset4) n s t)

/-- A service that emits `Diag(n)` and goes on to `pc + 2`: its word, and that nothing else changes (48_sys.md R151). -/
def DiagForm (i : Instr) (n : BitVec 3) : Prop :=
  ∀ s : State, encode i = field n 3 ||| 0x0007#16 ∧
    ∃ t, exec i s = .next t ∧ t.out = s.out ++ [.diag n] ∧ t.stepLimit = s.stepLimit ∧
      NoRegister s t ∧ MemoryKept s t ∧ GoesTo (s.pc.toNat + 2) s t

/-! ### Whole-machine terms -/

/-- The register an instruction writes (10_state.md R20, column 'writes'). -/
def destination : Instr → Option Reg
  | .add rd _ => some rd
  | .sub rd _ => some rd
  | .and rd _ => some rd
  | .or rd _ => some rd
  | .xor rd _ => some rd
  | .sll rd _ => some rd
  | .srl rd _ => some rd
  | .sra rd _ => some rd
  | .slt rd _ => some rd
  | .sltu rd _ => some rd
  | .addi rd _ => some rd
  | .andi rd _ => some rd
  | .ori rd _ => some rd
  | .xori rd _ => some rd
  | .slli rd _ => some rd
  | .srli rd _ => some rd
  | .srai rd _ => some rd
  | .slti rd _ => some rd
  | .beq _ _ _ => none
  | .bne _ _ _ => none
  | .blt _ _ _ => none
  | .bge _ _ _ => none
  | .bltu _ _ _ => none
  | .bgeu _ _ _ => none
  | .sb _ _ _ => none
  | .sw _ _ _ => none
  | .lb rd _ _ => some rd
  | .lw rd _ _ => some rd
  | .lbu rd _ _ => some rd
  | .lwu rd _ _ => some rd
  | .jal rd _ => some rd
  | .jalr rd _ _ => some rd
  | .lui rd _ => some rd
  | .ecallPrintInt => none
  | .ecallHalt => none
  | .ecallPrintString => none
  | .ecallUnknown0 => none
  | .ecallUnknown2 => none
  | .ecallUnknown4 => none
  | .ecallUnknown6 => none
  | .ecallUnknown7 => none

/-- The registers an instruction reads (10_state.md R20, column 'reads'; the ecall register is x6, D21). -/
def sources : Instr → List Reg
  | .add rd rs2 => [rd, rs2]
  | .sub rd rs2 => [rd, rs2]
  | .and rd rs2 => [rd, rs2]
  | .or rd rs2 => [rd, rs2]
  | .xor rd rs2 => [rd, rs2]
  | .sll rd rs2 => [rd, rs2]
  | .srl rd rs2 => [rd, rs2]
  | .sra rd rs2 => [rd, rs2]
  | .slt rd rs2 => [rd, rs2]
  | .sltu rd rs2 => [rd, rs2]
  | .addi rd _ => [rd]
  | .andi rd _ => [rd]
  | .ori rd _ => [rd]
  | .xori rd _ => [rd]
  | .slli rd _ => [rd]
  | .srli rd _ => [rd]
  | .srai rd _ => [rd]
  | .slti rd _ => [rd]
  | .beq rs1 rs2 _ => [rs1, rs2]
  | .bne rs1 rs2 _ => [rs1, rs2]
  | .blt rs1 rs2 _ => [rs1, rs2]
  | .bge rs1 rs2 _ => [rs1, rs2]
  | .bltu rs1 rs2 _ => [rs1, rs2]
  | .bgeu rs1 rs2 _ => [rs1, rs2]
  | .sb rs2 rs1 _ => [rs1, rs2]
  | .sw rs2 rs1 _ => [rs1, rs2]
  | .lb _ rs1 _ => [rs1]
  | .lw _ rs1 _ => [rs1]
  | .lbu _ rs1 _ => [rs1]
  | .lwu _ rs1 _ => [rs1]
  | .jal _ _ => []
  | .jalr _ rs1 _ => [rs1]
  | .lui _ _ => []
  | .ecallPrintInt => [.x6]
  | .ecallHalt => []
  | .ecallPrintString => [.x6]
  | .ecallUnknown0 => []
  | .ecallUnknown2 => []
  | .ecallUnknown4 => []
  | .ecallUnknown6 => []
  | .ecallUnknown7 => []

/-- `pc + 2` where a load's or store's `n`-byte access is admitted (44_load_store.md R130). -/
def afterAccess (s : State) (rs1 : Reg) (off : BitVec 4) (n : Nat) : Option Int :=
  if 0 ≤ loadStoreAddress s rs1 off ∧ loadStoreAddress s rs1 off + n ≤ 65536 then some (s.pc.toNat + 2) else none

/-- The exact target an instruction goes on to, where the rules give it one without a memory scan: none for a load or
store that is not admitted, for `ecall 3`, and for `ecall 5`, which has a claim of its own (40_execution_cycle.md R91). -/
def continueTarget (s : State) : Instr → Option Int
  | .beq rs1 rs2 off => some (if s.reg rs1 = s.reg rs2 then s.pc.toNat + 2 * off.toInt else s.pc.toNat + 2)
  | .bne rs1 rs2 off => some (if s.reg rs1 = s.reg rs2 then s.pc.toNat + 2 else s.pc.toNat + 2 * off.toInt)
  | .blt rs1 rs2 off =>
    some (if (s.reg rs1).toInt < (s.reg rs2).toInt then s.pc.toNat + 2 * off.toInt else s.pc.toNat + 2)
  | .bge rs1 rs2 off =>
    some (if (s.reg rs1).toInt < (s.reg rs2).toInt then s.pc.toNat + 2 else s.pc.toNat + 2 * off.toInt)
  | .bltu rs1 rs2 off =>
    some (if (s.reg rs1).toNat < (s.reg rs2).toNat then s.pc.toNat + 2 * off.toInt else s.pc.toNat + 2)
  | .bgeu rs1 rs2 off =>
    some (if (s.reg rs1).toNat < (s.reg rs2).toNat then s.pc.toNat + 2 else s.pc.toNat + 2 * off.toInt)
  | .sb _ rs1 off => afterAccess s rs1 off 1
  | .sw _ rs1 off => afterAccess s rs1 off 2
  | .lb _ rs1 off => afterAccess s rs1 off 1
  | .lw _ rs1 off => afterAccess s rs1 off 2
  | .lbu _ rs1 off => afterAccess s rs1 off 1
  | .lwu _ rs1 off => afterAccess s rs1 off 2
  | .jal _ off => some (s.pc.toNat + 2 * off.toInt)
  | .jalr _ rs1 off => some (jalrGoal s rs1 off)
  | .ecallHalt => none
  | .ecallPrintString => none
  | .add _ _ => some (s.pc.toNat + 2)
  | .sub _ _ => some (s.pc.toNat + 2)
  | .and _ _ => some (s.pc.toNat + 2)
  | .or _ _ => some (s.pc.toNat + 2)
  | .xor _ _ => some (s.pc.toNat + 2)
  | .sll _ _ => some (s.pc.toNat + 2)
  | .srl _ _ => some (s.pc.toNat + 2)
  | .sra _ _ => some (s.pc.toNat + 2)
  | .slt _ _ => some (s.pc.toNat + 2)
  | .sltu _ _ => some (s.pc.toNat + 2)
  | .addi _ _ => some (s.pc.toNat + 2)
  | .andi _ _ => some (s.pc.toNat + 2)
  | .ori _ _ => some (s.pc.toNat + 2)
  | .xori _ _ => some (s.pc.toNat + 2)
  | .slli _ _ => some (s.pc.toNat + 2)
  | .srli _ _ => some (s.pc.toNat + 2)
  | .srai _ _ => some (s.pc.toNat + 2)
  | .slti _ _ => some (s.pc.toNat + 2)
  | .lui _ _ => some (s.pc.toNat + 2)
  | .ecallPrintInt => some (s.pc.toNat + 2)
  | .ecallUnknown0 => some (s.pc.toNat + 2)
  | .ecallUnknown2 => some (s.pc.toNat + 2)
  | .ecallUnknown4 => some (s.pc.toNat + 2)
  | .ecallUnknown6 => some (s.pc.toNat + 2)
  | .ecallUnknown7 => some (s.pc.toNat + 2)

/-- The instruction is a system call: the only kind that emits (10_state.md R27). -/
def isSystemCall (i : Instr) : Bool :=
  i = .ecallPrintInt || i = .ecallHalt || i = .ecallPrintString || i = .ecallUnknown0 || i = .ecallUnknown2 ||
    i = .ecallUnknown4 || i = .ecallUnknown6 || i = .ecallUnknown7

/-- The illegal words, case by case (30_encoding.md R82). -/
def IllegalWord (w : Word) : Prop :=
  (w.toNat % 8 = 0 ∧ w.toNat / 8 % 8 ≠ 0) ∨
  (w.toNat % 8 = 0 ∧ w.toNat / 8 % 8 = 0 ∧ 10 ≤ w.toNat / 4096) ∨
  (w.toNat % 8 = 2 ∧ 6 ≤ w.toNat / 8 % 8) ∨
  (w.toNat % 8 = 3 ∧ 6 ≤ w.toNat / 8 % 8)

/-- The word with the bits its format ignores cleared: bit 3 of opcode 6, bits 15 to 6 of opcode 7 (30_encoding.md R83). -/
def withoutIgnoredBits (w : Word) : Word :=
  if w.toNat % 8 = 6 then w &&& 0xFFF7#16 else if w.toNat % 8 = 7 then w &&& 0x003F#16 else w

/-- Two states alike in all a program can observe or affect but the output, the step count and the halt record. -/
def SameProgramState (s t : State) : Prop := s.regs = t.regs ∧ s.pc = t.pc ∧ s.mem = t.mem ∧ s.run = t.run

end Sys2Proof.Safety
end

