-- ==== Sys2Proof/Certificates/Slice0/Obligations.lean ====
section
/-! DEFINITION. The statements for the provers, one `def Obligations.<Name> : Prop` each, from the spec's numbered rules.
The terms they use stand in Sys2Proof/Safety.lean. -/

open Sys2Proof Sys2Proof.Machine Sys2Proof.Safety

/-! ### Encoding -/

/-- Decoding the word of an instruction gives the instruction back, every operand at every value its encoding admits
(30_encoding.md R63 to R81, R84; the selector values are the spec's decisions D4 to D11, D19, D20, log 9). -/
def Obligations.DecodeOfEncodeIsIdentity : Prop :=
  ∀ i : Instr, i.wellFormed = true → decode (encode i) = .ok i

/-- A decoded instruction is well-formed, and its word is the one it was read from, less the bits its format ignores
(30_encoding.md R69, R70, R83; decision D20). -/
def Obligations.EncodeOfDecodeClearsIgnoredBits : Prop :=
  ∀ (w : Word) (i : Instr), decode w = .ok i → i.wellFormed = true ∧ encode i = withoutIgnoredBits w

/-- A word decodes to `UnknownFunct`, with the raw word, exactly in the cases of 30_encoding.md R82 (decision D5), and
every other word decodes to an instruction: `UnknownOpcode` never occurs (U2). -/
def Obligations.IllegalWordsAreExactlyTheListed : Prop :=
  ∀ w : Word, (IllegalWord w ↔ decode w = .error (.unknownFunct w)) ∧ (¬IllegalWord w ↔ ∃ i, decode w = .ok i)

/-- Words that differ only in bits their format ignores decode alike (30_encoding.md R83; decision D20). -/
def Obligations.IgnoredBitsDoNotChangeDecoding : Prop :=
  ∀ v w : Word, v.toNat % 8 = w.toNat % 8 → withoutIgnoredBits v = withoutIgnoredBits w →
    w.toNat % 8 = 6 ∨ w.toNat % 8 = 7 → decode v = decode w

/-- Words written out from the spec's encodings decode to what the spec says they are (worked examples of 41_r_type.md
to 48_sys.md and 95_test_vectors.md L2.D; a sanity check on fixed words). -/
def Obligations.WrittenWordsDecode : Prop :=
  decode 0x1440#16 = .ok (.sub .x1 .x2) ∧ decode 0xFE41#16 = .ok (.addi .x1 0x7F#7) ∧
  decode 0xE04A#16 = .ok (.bne .x1 .x0 0xE#4) ∧ decode 0x134B#16 = .ok (.sw .x1 .x5 1#4) ∧
  decode 0x0763#16 = .ok (.lbu .x3 .x5 0#4) ∧ decode 0xFFC4#16 = .ok (.jal .x7 0x1FF8#13) ∧
  decode 0xFE0D#16 = .ok (.jalr .x0 .x1 0x7F#7) ∧ decode 0x014E#16 = .ok (.lui .x5 0x014#12) ∧
  decode 0xFFCF#16 = .ok .ecallPrintInt ∧ decode 0xA440#16 = .error (.unknownFunct 0xA440#16)

/-! ### R-type (41_r_type.md) -/

/-- R102, R103: `add` and `sub` wrap modulo 65536. -/
def Obligations.AddAndSubWrap : Prop :=
  RForm .add 0x0000#16 (fun a b r => r.toNat = (a.toNat + b.toNat) % 65536) ∧
  RForm .sub 0x1000#16 (fun a b r => (r.toNat : Int) = ((a.toNat : Int) - b.toNat) % 65536)

/-- R104, R105, R106: `and`, `or` and `xor` bit by bit. -/
def Obligations.AndOrXorBitwise : Prop :=
  RForm .and 0x2000#16 (fun a b r => ∀ k, k < 16 → r.getLsbD k = (a.getLsbD k && b.getLsbD k)) ∧
  RForm .or 0x3000#16 (fun a b r => ∀ k, k < 16 → r.getLsbD k = (a.getLsbD k || b.getLsbD k)) ∧
  RForm .xor 0x4000#16 (fun a b r => ∀ k, k < 16 → r.getLsbD k = (a.getLsbD k != b.getLsbD k))

/-- R101, R107, R108, R109: the register shifts by the low 4 bits of the amount, left, right with zeros, and right
rounding the signed value toward minus infinity. -/
def Obligations.RegisterShiftsAreMasked : Prop :=
  RForm .sll 0x5000#16 (fun a b r => r.toNat = a.toNat * 2 ^ (b.toNat % 16) % 65536) ∧
  RForm .srl 0x6000#16 (fun a b r => r.toNat = a.toNat / 2 ^ (b.toNat % 16)) ∧
  RForm .sra 0x7000#16 (fun a b r => r.toInt = a.toInt.fdiv (2 ^ (b.toNat % 16)))

/-- R110, R111: `slt` and `sltu` write 1 or 0 by the signed and by the unsigned comparison. -/
def Obligations.SetLessThanComparisons : Prop :=
  RForm .slt 0x8000#16 (fun a b r => r = if a.toInt < b.toInt then 0x0001#16 else 0x0000#16) ∧
  RForm .sltu 0x9000#16 (fun a b r => r = if a.toNat < b.toNat then 0x0001#16 else 0x0000#16)

/-! ### I-type (42_i_type.md) -/

/-- R114, R121: `addi` and `slti` take the immediate as signed. -/
def Obligations.SignedImmediateForms : Prop :=
  IForm .addi 0x0001#16 (fun a imm r => (r.toNat : Int) = ((a.toNat : Int) + imm.toInt) % 65536) ∧
  IForm .slti 0x0039#16 (fun a imm r => r = if a.toInt < imm.toInt then 0x0001#16 else 0x0000#16)

/-- R115, R116, R117: `andi`, `ori` and `xori` take the immediate as unsigned: above its 7 bits it is zero. -/
def Obligations.UnsignedImmediateForms : Prop :=
  IForm .andi 0x0009#16 (fun a imm r => ∀ k, k < 16 → r.getLsbD k = (a.getLsbD k && (decide (k < 7) && imm.getLsbD k))) ∧
  IForm .ori 0x0011#16 (fun a imm r => ∀ k, k < 16 → r.getLsbD k = (a.getLsbD k || (decide (k < 7) && imm.getLsbD k))) ∧
  IForm .xori 0x0019#16 (fun a imm r => ∀ k, k < 16 → r.getLsbD k = (a.getLsbD k != (decide (k < 7) && imm.getLsbD k)))

/-- R118, R119, R120: the immediate shifts by the low 4 bits of imm7. -/
def Obligations.ImmediateShiftsIgnoreHighBits : Prop :=
  IForm .slli 0x0021#16 (fun a imm r => r.toNat = a.toNat * 2 ^ (imm.toNat % 16) % 65536) ∧
  IForm .srli 0x0029#16 (fun a imm r => r.toNat = a.toNat / 2 ^ (imm.toNat % 16)) ∧
  IForm .srai 0x0031#16 (fun a imm r => r.toInt = a.toInt.fdiv (2 ^ (imm.toNat % 16)))

/-! ### Branches (43_branch.md) -/

/-- R123, R124: `beq` and `bne`. -/
def Obligations.EqualityBranches : Prop :=
  BranchForm .beq 0x0002#16 (fun a b => a = b) ∧ BranchForm .bne 0x000A#16 (fun a b => a ≠ b)

/-- R125, R126: `blt` and `bge` compare as signed. -/
def Obligations.SignedBranches : Prop :=
  BranchForm .blt 0x0012#16 (fun a b => a.toInt < b.toInt) ∧ BranchForm .bge 0x001A#16 (fun a b => a.toInt ≥ b.toInt)

/-- R127, R128: `bltu` and `bgeu` compare as unsigned. -/
def Obligations.UnsignedBranches : Prop :=
  BranchForm .bltu 0x0022#16 (fun a b => a.toNat < b.toNat) ∧ BranchForm .bgeu 0x002A#16 (fun a b => a.toNat ≥ b.toNat)

/-! ### Loads and stores (44_load_store.md) -/

/-- R132: `sb` stores the low byte of the data register at the effective address, and nothing else. -/
def Obligations.StoreByteWritesOneByte : Prop :=
  StoreForm .sb 0x0003#16 1 (fun mem ea v => (mem ea).toNat = v.toNat % 256)

/-- R133: `sw` stores the low byte at the effective address and the high byte above it, at any alignment, both or
neither. -/
def Obligations.StoreWordWritesTwoBytes : Prop :=
  StoreForm .sw 0x000B#16 2 (fun mem ea v => (mem ea).toNat = v.toNat % 256 ∧ (mem (ea + 1)).toNat = v.toNat / 256)

/-- R134, R136: `lb` sign-extends the byte it loads, `lbu` zero-extends it. -/
def Obligations.ByteLoadsExtend : Prop :=
  LoadForm .lb 0x0013#16 1 (fun mem ea r => r.toInt = (mem ea).toInt) ∧
  LoadForm .lbu 0x0023#16 1 (fun mem ea r => r.toNat = (mem ea).toNat)

/-- R135: `lw` loads two bytes, the high one from the higher address, at any alignment. -/
def Obligations.LoadWordReadsTwoBytes : Prop :=
  LoadForm .lw 0x001B#16 2 (fun mem ea r => r.toNat = (mem (ea + 1)).toNat * 256 + (mem ea).toNat)

/-- `lwu` has an encoding of its own and the effect of `lw` in every state (44_load_store.md R137, which the spec marks
as derived from R135). -/
def Obligations.LoadWordUnsignedActsAsLoadWord : Prop :=
  LoadForm .lwu 0x002B#16 2 (fun mem ea r => r.toNat = (mem (ea + 1)).toNat * 256 + (mem ea).toNat) ∧
  ∀ (rd rs1 : Reg) (offset4 : BitVec 4) (s : State), exec (.lwu rd rs1 offset4) s = exec (.lw rd rs1 offset4) s

/-! ### Jumps and lui -/

/-- R139: `jal` writes the address after it, wrapped to 16 bits, into any register, and goes on to pc plus twice its
signed offset field, or ends the run there; its encoding holds `rd` in the offset's own bits (the coupling of `rd` and
offset, the end of the run and the wrapped link go back to the spec's decisions D19, D16 and D17). -/
def Obligations.JalLinksAndJumps : Prop :=
  ∀ (rd : Reg) (offset13 : BitVec 13) (s : State),
    ((Instr.jal rd offset13).wellFormed = true ↔ (2 * offset13.toInt / 16) % 8 = rd.bits.toNat) ∧
    encode (.jal rd offset13) = field offset13 3 ||| 0x0004#16 ∧
    ∃ t, exec (.jal rd offset13) s = .next t ∧ (t.reg rd).toNat = (s.pc.toNat + 2) % 65536 ∧
      OnlyRegister rd s t ∧ MemoryKept s t ∧ NoEvent s t ∧
      GoesTo (s.pc.toNat + 2 * offset13.toInt) s t ∧ EndsBeyond (s.pc.toNat + 2 * offset13.toInt) t

/-- `jalr` goes on to `x[rs1]`, as it was before the link is written, plus its signed offset, rounded down to even
(46_jalr.md R142, R143; the spec's decisions D16, D17, D18). -/
def Obligations.JalrReadsBaseBeforeLink : Prop :=
  ∀ (rd rs1 : Reg) (offset7 : BitVec 7) (s : State),
    encode (.jalr rd rs1 offset7) = field offset7 9 ||| field rd.bits 6 ||| field rs1.bits 3 ||| 0x0005#16 ∧
    ∃ t, exec (.jalr rd rs1 offset7) s = .next t ∧ (t.reg rd).toNat = (s.pc.toNat + 2) % 65536 ∧
      OnlyRegister rd s t ∧ MemoryKept s t ∧ NoEvent s t ∧
      GoesTo (jalrGoal s rs1 offset7) s t ∧ EndsBeyond (jalrGoal s rs1 offset7) t

/-- `lui` replaces all 16 bits of `x[rd]` by the immediate times 16; its encoding holds `rd` in the immediate's own bits
(47_lui.md R145; the spec's decisions D19, D20). -/
def Obligations.LuiReplacesRegister : Prop :=
  ∀ (rd : Reg) (imm12 : BitVec 12) (s : State),
    ((Instr.lui rd imm12).wellFormed = true ↔ imm12.toNat / 4 % 8 = rd.bits.toNat) ∧
    encode (.lui rd imm12) = field imm12 4 ||| 0x0006#16 ∧
    ∃ t, exec (.lui rd imm12) s = .next t ∧ (t.reg rd).toNat = imm12.toNat * 16 ∧
      OnlyRegister rd s t ∧ MemoryKept s t ∧ NoEvent s t ∧ GoesTo (s.pc.toNat + 2) s t

/-! ### System calls (48_sys.md) -/

/-- R148: `ecall 1` emits the ecall register's 16 bits as an integer to print, and nothing else changes (which register
that is, the spec decides in D21: `ecallReg`, log 8). -/
def Obligations.PrintIntegerEmitsRegister : Prop :=
  ∀ s : State, encode .ecallPrintInt = 0x000F#16 ∧
    ∃ t, exec .ecallPrintInt s = .next t ∧ t.out = s.out ++ [.printInt (s.reg ecallReg)] ∧ t.stepLimit = s.stepLimit ∧
      NoRegister s t ∧ MemoryKept s t ∧ GoesTo (s.pc.toNat + 2) s t

/-- `ecall 3` halts with `HALT_ECALL` and changes nothing else: pc stays, the step is not counted (48_sys.md R149;
40_execution_cycle.md R93; the spec's decision D24). -/
def Obligations.HaltServiceOnlyHalts : Prop :=
  ∀ s : State, encode .ecallHalt = 0x001F#16 ∧
    exec .ecallHalt s = .next { s with run := .halted, halt := { reason := .haltEcall, faultPc := s.pc, faultWord := wordAt s.mem s.pc.toNat, faultAddr := 0, faultWidth := 0, haltTarget := 0 } }

/-- `ecall 5` prints the bytes at x6 up to, not with, the first zero byte and goes on; with no zero byte below the top
of memory it prints them all, and the read of 65536 halts out of bounds (48_sys.md R150; the spec's decisions D21, D22). -/
def Obligations.PrintStringStopsAtNul : Prop :=
  ∀ (s : State) (a : Nat), a = (s.reg .x6).toNat →
    (∀ n, a + n < 65536 → (∀ k, k < n → s.mem.read (a + k) ≠ 0) → s.mem.read (a + n) = 0 →
      ∃ t, exec .ecallPrintString s = .next t ∧
        t.out = s.out ++ (List.range n).map (fun k => .printByte (s.mem.read (a + k))) ∧ t.stepLimit = s.stepLimit ∧
        NoRegister s t ∧ MemoryKept s t ∧ Committed (s.pc.toNat + 2) s t) ∧
    ((∀ k, a + k < 65536 → s.mem.read (a + k) ≠ 0) →
      ∃ t, exec .ecallPrintString s = .next t ∧
        t.out = s.out ++ (List.range (65536 - a)).map (fun k => .printByte (s.mem.read (a + k))) ∧
        t.ceiling = s.ceiling ∧ NoRegister s t ∧ MemoryKept s t ∧ t.pc = s.pc ∧ t.run = .halted ∧
        t.halt = { reason := .faultOutOfBounds, faultPc := s.pc, faultWord := wordAt s.mem s.pc.toNat, faultAddr := 65536, faultWidth := 1, haltTarget := 0 })

/-- The unknown services 0, 2, 4, 6 and 7 emit `Diag(n)` and go on; nothing else changes (48_sys.md R151; the spec's
decision D25). -/
def Obligations.UnknownServicesAreNotFatal : Prop :=
  DiagForm .ecallUnknown0 0#3 ∧ DiagForm .ecallUnknown2 2#3 ∧ DiagForm .ecallUnknown4 4#3 ∧
  DiagForm .ecallUnknown6 6#3 ∧ DiagForm .ecallUnknown7 7#3

/-! ### The cycle (40_execution_cycle.md) -/

/-- The commit of every instruction that goes on to a target, taken or not: one more step counted where a limit is
set (log 4), the target taken as given if it lies inside memory, `END_OF_MEMORY` with the whole record if not (40_execution_cycle.md R91, R92; the spec's
decisions D15, D16, D26). -/
def Obligations.EveryTargetIsTakenOrEndsTheRun : Prop :=
  ∀ (i : Instr) (s : State) (target : Int), continueTarget s i = some target →
    ∃ t, exec i s = .next t ∧ Committed target s t

/-- When the state can fetch and the little-endian word at pc decodes to an instruction, the step is that instruction's
meaning in that state: nothing is added around it (40_execution_cycle.md R86, R88, R89, R95; D28; 20_memory.md R44). -/
def Obligations.StepRunsTheDecodedInstruction : Prop :=
  ∀ (s : State) (i : Instr), CanFetch s → decode (wordAt s.mem s.pc.toNat) = .ok i → step s = exec i s

/-- A step exists exactly while Running. That a halted state has none is 40_execution_cycle.md section 1 (the model's step
then answers the fault `halted`, log 1); that every running state has one follows from section 2, whose whole step the
spec marks as derived, with the spec's decision D32 for a fetch, and from halts being next states (the model's own
reading, log 2). -/
def Obligations.StepEnabledExactlyWhileRunning : Prop :=
  ∀ s : State, (∃ t, step s = .next t) ↔ s.run = .running

/-- With the limit reached the step fetches nothing and halts with `STEP_LIMIT`, all else as it was
(40_execution_cycle.md R88; the spec's decision D28). -/
def Obligations.StepLimitStopsBeforeFetch : Prop :=
  ∀ (s : State) (c : StepCeiling), s.run = .running → s.ceiling = some c → c.limit ≤ c.steps →
    step s = .next { s with run := .halted, halt := { reason := .stepLimit, faultPc := s.pc, faultWord := 0, faultAddr := 0, faultWidth := 0, haltTarget := 0 } }

/-- R90: an illegal word halts with its address and itself; no register, byte, pc or event is written. -/
def Obligations.IllegalWordHaltsWithPcAndWord : Prop :=
  ∀ s : State, CanFetch s → decode (wordAt s.mem s.pc.toNat) = .error (.unknownFunct (wordAt s.mem s.pc.toNat)) →
    ∃ t, step s = .next t ∧ t.run = .halted ∧ t.halt.reason = .decodeUnknownFunct ∧ t.halt.faultPc = s.pc ∧
      t.halt.faultWord = wordAt s.mem s.pc.toNat ∧ NoRegister s t ∧ MemoryKept s t ∧ t.pc = s.pc ∧ NoEvent s t

/-- A fetch at the last byte fails its check and halts out of bounds with that address and width 2; no run from reset
gets there (the spec's decision D32; the record's `fault_word` is the model's choice, log 6, and is not stated). -/
def Obligations.FetchAtLastByteHalts : Prop :=
  ∀ s : State, s.run = .running → BelowLimit s → s.pc = 0xFFFF#16 →
    ∃ t, step s = .next t ∧ t.run = .halted ∧ t.halt.reason = .faultOutOfBounds ∧ t.halt.faultPc = s.pc ∧
      t.halt.faultAddr = 65535 ∧ t.halt.faultWidth = 2 ∧ NoRegister s t ∧ MemoryKept s t ∧ t.pc = s.pc ∧ NoEvent s t

/-- A running core halts only for one of the listed causes, and the reason it records is that cause: the limit, an
illegal word, `ecall 3`, an access out of range, or a target outside memory (10_state.md R24; 60_exceptions.md R155, R158;
the spec's decisions D26, D28, D36). -/
def Obligations.HaltReasonNamesItsCause : Prop :=
  ∀ s t : State, s.run = .running → s.pc.toNat + 2 ≤ 65536 → step s = .next t → t.run = .halted →
    (t.halt.reason = .stepLimit ∧ ¬BelowLimit s) ∨
    (t.halt.reason = .decodeUnknownFunct ∧ BelowLimit s ∧ IllegalWord (wordAt s.mem s.pc.toNat)) ∨
    (t.halt.reason = .haltEcall ∧ BelowLimit s ∧ decode (wordAt s.mem s.pc.toNat) = .ok .ecallHalt) ∨
    (t.halt.reason = .faultOutOfBounds ∧ BelowLimit s ∧
      ∃ i, decode (wordAt s.mem s.pc.toNat) = .ok i ∧ i ≠ .ecallHalt ∧ continueTarget s i = none) ∨
    (t.halt.reason = .endOfMemory ∧ BelowLimit s ∧ ¬(0 ≤ t.halt.haltTarget ∧ t.halt.haltTarget < 65536) ∧
      ∃ i, decode (wordAt s.mem s.pc.toNat) = .ok i ∧
        (continueTarget s i = some t.halt.haltTarget ∨ (i = .ecallPrintString ∧ t.halt.haltTarget = 65536)))

/-- Faults are precise: a step that ends in a memory or decode fault leaves registers, pc, memory and the step count as
they were, records the faulting address and word, and emits nothing unless it is `ecall 5` (60_exceptions.md R157;
40_execution_cycle.md R90, R94; the spec's decisions D14, D26). -/
def Obligations.FaultsArePrecise : Prop :=
  ∀ s t : State, CanFetch s → step s = .next t → t.run = .halted →
    t.halt.reason = .faultOutOfBounds ∨ t.halt.reason = .decodeUnknownFunct →
    t.regs = s.regs ∧ t.pc = s.pc ∧ t.mem = s.mem ∧ t.ceiling = s.ceiling ∧ t.halt.faultPc = s.pc ∧
    t.halt.faultWord = wordAt s.mem s.pc.toNat ∧ t.halt.haltTarget = 0 ∧
    (decode (wordAt s.mem s.pc.toNat) ≠ .ok .ecallPrintString → t.out = s.out)

/-! ### The whole machine -/

/-- Every step keeps the invariant: pc even, memory canonical, the record clear while Running, a reason and the stopped
pc once Halted (10_state.md R34, which the spec marks as derived; 10_state.md R25; 40_execution_cycle.md R92 to R94). -/
def Obligations.StepKeepsConsistency : Prop :=
  ∀ s t : State, Consistent s → step s = .next t → Consistent t

/-- The reset state meets the invariant (10_state.md R33, by the spec's decisions D2, D3, D26). -/
def Obligations.ResetIsConsistent : Prop := Consistent State.reset

/-- R169: booting puts byte `i` of the file at `M[i]` up to the top of memory, leaves every other byte zero, and starts
at pc 0. -/
def Obligations.BootLoadsTheImage : Prop :=
  ∀ (limit : Option Nat) (file : List Byte),
    (State.boot limit file).pc = 0 ∧ (State.boot limit file).run = .running ∧
    (∀ a, a < 65536 → (State.boot limit file).mem.read a = file.getD a 0)

/-- The launch state meets the invariant, whatever the file and the limit, and differs from the reset state in memory
and in the configured limit, whose counter starts at 0, only: with an empty file and no limit it is the reset state
(70_reset_and_hazards.md R168; the spec's decisions D2, D3, D28; log 11). -/
def Obligations.BootIsConsistent : Prop :=
  (∀ (limit : Option Nat) (file : List Byte), Consistent (State.boot limit file) ∧
    { State.boot limit file with mem := [], ceiling := none } = State.reset ∧
    (State.boot limit file).ceiling = limit.map (fun l => { limit := l, steps := 0 })) ∧
  State.boot none [] = State.reset

/-- What reset leaves: every register and pc zero, every byte zero, Running, the record clear, nothing emitted, and
no limit, so no step counter (10_state.md R28, R33, by the spec's decisions D2, D3, D26, D28; the absent limit is
log 3). -/
def Obligations.ResetValues : Prop :=
  (∀ r, State.reset.reg r = 0) ∧ State.reset.pc = 0 ∧ (∀ a, State.reset.mem.read a = 0) ∧ State.reset.run = .running ∧
  State.reset.halt = { reason := .none, faultPc := 0, faultWord := 0, faultAddr := 0, faultWidth := 0, haltTarget := 0 } ∧
  State.reset.out = [] ∧ State.reset.ceiling = none

/-- A step only appends to the output, does so only for a system call, and never changes the configured limit
(10_state.md R27, R31; the spec's decision D23). -/
def Obligations.OnlySystemCallsEmit : Prop :=
  ∀ s t : State, CanFetch s → step s = .next t →
    t.stepLimit = s.stepLimit ∧ ∃ es, t.out = s.out ++ es ∧
      (es ≠ [] → ∃ i, decode (wordAt s.mem s.pc.toNat) = .ok i ∧ isSystemCall i = true)

/-- An instruction writes no register but its destination, and memory only if it is `sb` or `sw` (10_state.md R20, column
'writes'; 20_memory.md R50). -/
def Obligations.WritesOnlyItsDestination : Prop :=
  ∀ (i : Instr) (s t : State), exec i s = .next t →
    (∀ r, destination i ≠ some r → t.reg r = s.reg r) ∧
    ((∀ r b off, i ≠ .sb r b off) → (∀ r b off, i ≠ .sw r b off) → t.mem = s.mem)

/-- An instruction reads no register but its sources: changing any other one changes nothing it does, and that register
keeps its new value unless the instruction writes it (10_state.md R20, column 'reads'; the ecall register by the spec's
decision D21). -/
def Obligations.ReadsOnlyItsSources : Prop :=
  ∀ (i : Instr) (s : State) (r : Reg) (v : Word), r ∉ sources i →
    ∃ t u, exec i s = .next t ∧ exec i (s.setReg r v) = .next u ∧
      u.pc = t.pc ∧ u.mem = t.mem ∧ u.run = t.run ∧ u.halt = t.halt ∧ u.out = t.out ∧ u.ceiling = t.ceiling ∧
      (∀ q, q ≠ r → u.reg q = t.reg q) ∧
      ((t.reg r = s.reg r ∧ u.reg r = v) ∨ (destination i = some r ∧ u.reg r = t.reg r))

/-- Nothing the core does depends on the output, the step count or the halt record: two running states alike in the rest
and below their limits step to states alike in the rest, emitting the same events (10_state.md R23, R27, R28;
60_exceptions.md R163; the spec's decisions D23, D28). -/
def Obligations.OutputAndBookkeepingAreNeverRead : Prop :=
  ∀ s s' t : State, s.run = .running → SameProgramState s s' → BelowLimit s → BelowLimit s' → step s = .next t →
    ∃ t' es, step s' = .next t' ∧ SameProgramState t t' ∧ t.out = s.out ++ es ∧ t'.out = s'.out ++ es ∧
      (t.run = .halted → t.halt = t'.halt)

/-- A step limit ends every run: from any running state with a limit the core is Halted within the steps the limit still
allows and one more (40_execution_cycle.md R88, R92, R97; the spec's decision D28). -/
def Obligations.StepLimitEndsEveryRun : Prop :=
  ∀ (s : State) (c : StepCeiling), s.run = .running → s.ceiling = some c →
    ∃ n t, n ≤ c.limit - c.steps + 1 ∧ core.run n s = .next t ∧ t.run = .halted

/-! ### Registers and memory -/

/-- R18: register 0 stores what is written to it, as every other register does, and no write disturbs another register. -/
def Obligations.RegisterZeroIsOrdinary : Prop :=
  ∀ (s : State) (r q : Reg) (v : Word),
    (s.setReg .x0 v).reg .x0 = v ∧ (s.setReg r v).reg q = if q = r then v else s.reg q

/-- R43: inside memory a 2-byte write puts the low byte at the address and the high byte above it, a 2-byte read takes
them so, a 1-byte access is one byte, and no other byte changes. -/
def Obligations.MemoryIsLittleEndian : Prop :=
  ∀ (m : Memory) (a : Nat) (v : Word) (b : Byte),
    (a + 2 ≤ 65536 →
      m.read2 a = some (m.read (a + 1) ++ m.read a) ∧
      ∃ m', m.write2 a v = some m' ∧ m'.read a = v.extractLsb' 0 8 ∧ m'.read (a + 1) = v.extractLsb' 8 8 ∧
        ∀ k, k ≠ a → k ≠ a + 1 → m'.read k = m.read k) ∧
    (a + 1 ≤ 65536 →
      m.read1 a = some (m.read a) ∧
      ∃ m', m.write1 a b = some m' ∧ m'.read a = b ∧ ∀ k, k ≠ a → m'.read k = m.read k)

/-- Two memories in canonical form that read alike are the same list, and a write that is admitted keeps the form (the
model's own representation, log 12; 20_memory.md R41, R55). -/
def Obligations.CanonicalMemoriesAreEqual : Prop :=
  (∀ m m' : Memory, m.wf = true → m'.wf = true → (∀ a, m.read a = m'.read a) → m = m') ∧
  (∀ (m m' : Memory) (a : Int) (v : Word), m.wf = true → m.write2 a v = some m' → m'.wf = true) ∧
  (∀ (m m' : Memory) (a : Int) (b : Byte), m.wf = true → m.write1 a b = some m' → m'.wf = true)

/-- A store over the next instruction is what the next step fetches and runs (20_memory.md R58, which the spec marks as
derived from R42 and R55). -/
def Obligations.StoreIsSeenByTheNextFetch : Prop :=
  ∀ (s : State) (rs2 rs1 : Reg) (offset4 : BitVec 4) (i : Instr),
    s.run = .running → s.stepLimit = none → s.pc.toNat + 4 ≤ 65536 →
    loadStoreAddress s rs1 offset4 = s.pc.toNat + 2 → decode (s.reg rs2) = .ok i →
    ∃ t, exec (.sw rs2 rs1 offset4) s = .next t ∧ step t = exec i t
end

