-- ==== Sys2Proof/Laws/Decode.lean ====
section
/-! SUPPORT. The decoder's and encoder's small lemmas: registers and their fields, the bytes of a word. -/

namespace Sys2Proof

@[simp] theorem Reg.ofBits_bits (r : Reg) : Reg.ofBits r.bits = r := by cases r <;> rfl

@[simp] theorem Reg.bits_ofBits (b : BitVec 3) : (Reg.ofBits b).bits = b := by revert b; decide

/-- A word is its two bytes, the high one on top. -/
@[simp] theorem wordOfBytes_bytes (w : Word) : wordOfBytes (lowByte w) (highByte w) = w := by
  unfold wordOfBytes lowByte highByte
  rw [BitVec.extractLsb'_append_extractLsb'_eq_extractLsb' (by rfl)]
  simp

@[simp] theorem lowByte_wordOfBytes (low high : Byte) : lowByte (wordOfBytes low high) = low :=
  BitVec.extractLsb'_append_eq_right

@[simp] theorem highByte_wordOfBytes (low high : Byte) : highByte (wordOfBytes low high) = high :=
  BitVec.extractLsb'_append_eq_left

theorem lowByte_toNat (w : Word) : (lowByte w).toNat = w.toNat % 256 := by simp [lowByte]

theorem highByte_toNat (w : Word) : (highByte w).toNat = w.toNat / 256 := by
  have := w.isLt
  simp [highByte, Nat.shiftRight_eq_div_pow]; omega

theorem wordOfBytes_toNat (low high : Byte) : (wordOfBytes low high).toNat = high.toNat * 256 + low.toNat := by
  unfold wordOfBytes
  rw [BitVec.toNat_append, Nat.shiftLeft_eq, Nat.mul_comm, ← Nat.two_pow_add_eq_or_of_lt low.isLt, Nat.mul_comm]

/-! ### An encoded word as shifted fields -/

/-- A field above another one, in a word, is that field shifted up beside the other. -/
theorem setWidth_append {m n k : Nat} (x : BitVec m) (y : BitVec n) :
    (x ++ y).setWidth k = x.setWidth k <<< n ||| y.setWidth k := by
  ext i hi
  simp only [BitVec.getElem_setWidth, BitVec.getLsbD_append, BitVec.getElem_or, BitVec.getElem_shiftLeft]
  by_cases h : i < n
  · simp [h]
  · have hy : y.getLsbD i = false := BitVec.getLsbD_of_ge y i (by omega)
    simp [h, hy]

/-- 30_encoding.md R84, row R. -/
theorem encodeR_fields (funct4 : BitVec 4) (rd rs2 : Reg) :
    encodeR funct4 rd rs2 = funct4.setWidth 16 <<< 12 ||| rs2.bits.setWidth 16 <<< 9 ||| rd.bits.setWidth 16 <<< 6 := by
  show (funct4 ++ rs2.bits ++ rd.bits ++ 0#3 ++ 0#3) = _
  refine (BitVec.setWidth_eq (n := 16) _).symm.trans ?_
  simp only [setWidth_append, BitVec.shiftLeft_or_distrib, ← BitVec.shiftLeft_add]
  simp

/-- 30_encoding.md R84, row I. -/
theorem encodeI_fields (funct3 : BitVec 3) (rd : Reg) (imm7 : BitVec 7) :
    encodeI funct3 rd imm7 = imm7.setWidth 16 <<< 9 ||| rd.bits.setWidth 16 <<< 6 ||| funct3.setWidth 16 <<< 3 ||| 1#16 := by
  show (imm7 ++ rd.bits ++ funct3 ++ 1#3) = _
  refine (BitVec.setWidth_eq (n := 16) _).symm.trans ?_
  simp only [setWidth_append, BitVec.shiftLeft_or_distrib, ← BitVec.shiftLeft_add]
  rfl

/-- 30_encoding.md R84, row B. -/
theorem encodeB_fields (funct3 : BitVec 3) (rs1 rs2 : Reg) (offset4 : BitVec 4) :
    encodeB funct3 rs1 rs2 offset4 = offset4.setWidth 16 <<< 12 ||| rs2.bits.setWidth 16 <<< 9 ||| rs1.bits.setWidth 16 <<< 6 |||
      funct3.setWidth 16 <<< 3 ||| 2#16 := by
  show (offset4 ++ rs2.bits ++ rs1.bits ++ funct3 ++ 2#3) = _
  refine (BitVec.setWidth_eq (n := 16) _).symm.trans ?_
  simp only [setWidth_append, BitVec.shiftLeft_or_distrib, ← BitVec.shiftLeft_add]
  rfl

/-- 30_encoding.md R84, row S/L. -/
theorem encodeLS_fields (funct3 : BitVec 3) (r rs1 : Reg) (offset4 : BitVec 4) :
    encodeLS funct3 r rs1 offset4 = offset4.setWidth 16 <<< 12 ||| r.bits.setWidth 16 <<< 9 ||| rs1.bits.setWidth 16 <<< 6 |||
      funct3.setWidth 16 <<< 3 ||| 3#16 := by
  show (offset4 ++ r.bits ++ rs1.bits ++ funct3 ++ 3#3) = _
  refine (BitVec.setWidth_eq (n := 16) _).symm.trans ?_
  simp only [setWidth_append, BitVec.shiftLeft_or_distrib, ← BitVec.shiftLeft_add]
  rfl

/-- 30_encoding.md R84, row JAL. -/
theorem encode_jal_fields (rd : Reg) (offset13 : BitVec 13) :
    encode (.jal rd offset13) = offset13.setWidth 16 <<< 3 ||| 4#16 := by
  show (offset13 ++ 4#3) = _
  refine (BitVec.setWidth_eq (n := 16) _).symm.trans ?_
  simp only [setWidth_append]
  rfl

/-- 30_encoding.md R84, row JALR. -/
theorem encode_jalr_fields (rd rs1 : Reg) (offset7 : BitVec 7) :
    encode (.jalr rd rs1 offset7) = offset7.setWidth 16 <<< 9 ||| rd.bits.setWidth 16 <<< 6 ||| rs1.bits.setWidth 16 <<< 3 ||| 5#16 := by
  show (offset7 ++ rd.bits ++ rs1.bits ++ 5#3) = _
  refine (BitVec.setWidth_eq (n := 16) _).symm.trans ?_
  simp only [setWidth_append, BitVec.shiftLeft_or_distrib, ← BitVec.shiftLeft_add]
  rfl

/-- 30_encoding.md R84, row LUI. -/
theorem encode_lui_fields (rd : Reg) (imm12 : BitVec 12) :
    encode (.lui rd imm12) = imm12.setWidth 16 <<< 4 ||| 6#16 := by
  show (imm12 ++ 0#1 ++ 6#3) = _
  refine (BitVec.setWidth_eq (n := 16) _).symm.trans ?_
  simp only [setWidth_append, BitVec.shiftLeft_or_distrib, ← BitVec.shiftLeft_add]
  simp

end Sys2Proof
end

