-- ==== Sys2Proof/Laws/Memory.lean ====
section
/-! SUPPORT. Memory: reading after writing, in any list; the canonical form, which every operation keeps and in which
memories that read alike are equal; and one lemma per checked access. -/

namespace Sys2Proof.Machine

/-! ### Reading after writing -/

@[simp] theorem Memory.read_erase_same (m : Memory) (a : Nat) : (m.erase a).read a = Config.unlistedByte := by
  induction m with
  | nil => rfl
  | cons c m ih =>
    simp only [Memory.erase]
    split
    · exact ih
    · next h => simp [Memory.read, h, ih]

theorem Memory.read_erase_other (m : Memory) {a k : Nat} (h : k ≠ a) : (m.erase a).read k = m.read k := by
  induction m with
  | nil => rfl
  | cons c m ih =>
    simp only [Memory.erase]
    split
    · next hc => simp [Memory.read, hc, Ne.symm h, ih]
    · simp only [Memory.read, ih]

theorem Memory.read_insert_same (m : Memory) (a : Nat) (b : Byte) (h : m.read a = Config.unlistedByte)
    (hm : ∀ c ∈ m, c.1 ≠ a) : (m.insert a b).read a = b := by
  induction m with
  | nil => simp [Memory.insert, Memory.read]
  | cons c m ih =>
    have hc : c.1 ≠ a := hm c (by simp)
    simp only [Memory.insert]
    split
    · simp [Memory.read]
    · simp only [Memory.read, hc, if_false] at h ⊢
      exact ih h fun d hd => hm d (by simp [hd])

theorem Memory.read_insert_other (m : Memory) {a k : Nat} (b : Byte) (h : k ≠ a) :
    (m.insert a b).read k = m.read k := by
  induction m with
  | nil => simp [Memory.insert, Memory.read, Ne.symm h]
  | cons c m ih =>
    simp only [Memory.insert]
    split
    · simp [Memory.read, Ne.symm h]
    · simp only [Memory.read, ih]

theorem Memory.erase_without (m : Memory) (a : Nat) : ∀ c ∈ m.erase a, c.1 ≠ a := by
  induction m with
  | nil => simp [Memory.erase]
  | cons c m ih =>
    simp only [Memory.erase]
    split
    · exact ih
    · next h =>
      intro d hd
      rcases List.mem_cons.mp hd with rfl | hd
      · exact h
      · exact ih d hd

/-- The byte written is the byte read. -/
@[simp] theorem Memory.read_write_same (m : Memory) (a : Nat) (b : Byte) : (m.write a b).read a = b := by
  unfold Memory.write
  split
  · next h => simp [h]
  · exact Memory.read_insert_same _ a b (by simp) (Memory.erase_without m a)

/-- A write disturbs no other byte. -/
theorem Memory.read_write_other (m : Memory) {a k : Nat} (b : Byte) (h : k ≠ a) : (m.write a b).read k = m.read k := by
  unfold Memory.write
  split
  · exact Memory.read_erase_other m h
  · rw [Memory.read_insert_other _ b h, Memory.read_erase_other m h]

/-! ### The canonical form -/

theorem Memory.wfFrom_mono {m : Memory} {low low' : Nat} (h : m.wfFrom low = true) (hl : low' ≤ low) :
    m.wfFrom low' = true := by
  cases m with
  | nil => rfl
  | cons c m =>
    simp only [Memory.wfFrom, Bool.and_eq_true, decide_eq_true_eq] at h ⊢
    exact ⟨⟨⟨by omega, h.1.1.2⟩, h.1.2⟩, h.2⟩

theorem Memory.read_below {m : Memory} {low a : Nat} (h : m.wfFrom low = true) (ha : a < low) :
    m.read a = Config.unlistedByte := by
  induction m generalizing low with
  | nil => rfl
  | cons c m ih =>
    simp only [Memory.wfFrom, Bool.and_eq_true, decide_eq_true_eq] at h
    have hk : c.1 ≠ a := by omega
    simp only [Memory.read, hk, if_false]
    exact ih h.2 (by omega)

theorem Memory.wfFrom_erase {m : Memory} {low : Nat} (a : Nat) (h : m.wfFrom low = true) :
    (m.erase a).wfFrom low = true := by
  induction m generalizing low with
  | nil => rfl
  | cons c m ih =>
    have h' := h
    simp only [Memory.wfFrom, Bool.and_eq_true, decide_eq_true_eq] at h
    simp only [Memory.erase]
    split
    · exact Memory.wfFrom_mono (ih h.2) (by omega)
    · simp only [Memory.wfFrom, Bool.and_eq_true, decide_eq_true_eq]
      exact ⟨h.1, ih h.2⟩

theorem Memory.wfFrom_insert {m : Memory} {low a : Nat} {b : Byte} (h : m.wfFrom low = true) (hl : low ≤ a)
    (ha : a < Config.memSize) (hb : b ≠ Config.unlistedByte) (hm : ∀ c ∈ m, c.1 ≠ a) :
    (m.insert a b).wfFrom low = true := by
  induction m generalizing low with
  | nil => simp [Memory.insert, Memory.wfFrom, hl, ha, hb]
  | cons c m ih =>
    have hc : c.1 ≠ a := hm c (by simp)
    simp only [Memory.wfFrom, Bool.and_eq_true, decide_eq_true_eq] at h
    simp only [Memory.insert]
    split
    · simp only [Memory.wfFrom, Bool.and_eq_true, decide_eq_true_eq]
      exact ⟨⟨⟨hl, ha⟩, hb⟩, ⟨⟨by omega, h.1.1.2⟩, h.1.2⟩, h.2⟩
    · simp only [Memory.wfFrom, Bool.and_eq_true, decide_eq_true_eq]
      exact ⟨h.1, ih h.2 (by omega) fun d hd => hm d (by simp [hd])⟩

/-- A write inside memory keeps the canonical form. -/
theorem Memory.wf_write {m : Memory} {a : Nat} (b : Byte) (h : m.wf = true) (ha : a < Config.memSize) :
    (m.write a b).wf = true := by
  unfold Memory.write Memory.wf
  split
  · exact Memory.wfFrom_erase a h
  · next hb => exact Memory.wfFrom_insert (Memory.wfFrom_erase a h) (by omega) ha hb (Memory.erase_without m a)

/-! ### The checked accesses -/

theorem inBounds_iff (a : Int) (n : Nat) : inBounds a n = true ↔ 0 ≤ a ∧ a + n ≤ 65536 := by
  unfold inBounds
  rw [Bool.and_eq_true, decide_eq_true_eq, decide_eq_true_eq, Config.memSize]
  omega

/-- A 1-byte read is admitted inside memory, and is the byte. -/
theorem Memory.read1_eq_some {m : Memory} {a : Int} {b : Byte} :
    m.read1 a = some b ↔ (0 ≤ a ∧ a + 1 ≤ 65536) ∧ m.read a.toNat = b := by
  simp [Memory.read1, inBounds_iff]

/-- A 2-byte read is admitted inside memory, and is the two bytes, the higher address on top. -/
theorem Memory.read2_eq_some {m : Memory} {a : Int} {w : Word} :
    m.read2 a = some w ↔ (0 ≤ a ∧ a + 2 ≤ 65536) ∧ m.read (a.toNat + 1) ++ m.read a.toNat = w := by
  simp [Memory.read2, inBounds_iff, wordOfBytes]

theorem Memory.read1_eq_none {m : Memory} {a : Int} : m.read1 a = none ↔ ¬(0 ≤ a ∧ a + 1 ≤ 65536) := by
  simp [Memory.read1, inBounds_iff]

theorem Memory.read2_eq_none {m : Memory} {a : Int} : m.read2 a = none ↔ ¬(0 ≤ a ∧ a + 2 ≤ 65536) := by
  simp [Memory.read2, inBounds_iff]

theorem Memory.write1_eq_none {m : Memory} {a : Int} {b : Byte} :
    m.write1 a b = none ↔ ¬(0 ≤ a ∧ a + 1 ≤ 65536) := by
  simp [Memory.write1, inBounds_iff]

theorem Memory.write2_eq_none {m : Memory} {a : Int} {v : Word} :
    m.write2 a v = none ↔ ¬(0 ≤ a ∧ a + 2 ≤ 65536) := by
  simp [Memory.write2, inBounds_iff]

/-- What a 1-byte write does where it is admitted. -/
theorem Memory.write1_spec {m m' : Memory} {a : Int} {b : Byte} (h : m.write1 a b = some m') :
    (0 ≤ a ∧ a + 1 ≤ 65536) ∧ m'.read a.toNat = b ∧ (∀ k, k ≠ a.toNat → m'.read k = m.read k) ∧
      (m.wf = true → m'.wf = true) := by
  simp only [Memory.write1, Option.ite_none_right_eq_some, inBounds_iff, Option.some.injEq] at h
  obtain ⟨ha, rfl⟩ := h
  refine ⟨ha, by simp, fun k hk => Memory.read_write_other m b hk, fun hm => Memory.wf_write b hm ?_⟩
  simp only [Config.memSize]; omega

/-- What a 2-byte write does where it is admitted: low byte at the address, high byte above, nothing else. -/
theorem Memory.write2_spec {m m' : Memory} {a : Int} {v : Word} (h : m.write2 a v = some m') :
    (0 ≤ a ∧ a + 2 ≤ 65536) ∧ m'.read a.toNat = lowByte v ∧ m'.read (a.toNat + 1) = highByte v ∧
      (∀ k, k ≠ a.toNat → k ≠ a.toNat + 1 → m'.read k = m.read k) ∧ (m.wf = true → m'.wf = true) := by
  simp only [Memory.write2, Option.ite_none_right_eq_some, inBounds_iff, Option.some.injEq] at h
  obtain ⟨ha, rfl⟩ := h
  refine ⟨ha, ?_, by simp, fun k h0 h1 => ?_, fun hm => ?_⟩
  · rw [Memory.read_write_other _ _ (by omega)]; simp
  · rw [Memory.read_write_other _ _ h1, Memory.read_write_other _ _ h0]
  · refine Memory.wf_write _ (Memory.wf_write _ hm ?_) ?_ <;> simp only [Config.memSize] <;> omega

/-! ### The string scan -/

/-- The scan up to the first zero byte, when there is one among the bytes left. -/
theorem Memory.scan_of_nul {m : Memory} {left a n : Nat} (hn : n < left) (hz : m.read (a + n) = 0)
    (hnz : ∀ k, k < n → m.read (a + k) ≠ 0) :
    m.scan left a = ((List.range n).map (fun k => m.read (a + k)), true) := by
  induction left generalizing a n with
  | zero => omega
  | succ left ih =>
    cases n with
    | zero => simp_all [Memory.scan]
    | succ n =>
      have h0 : m.read a ≠ 0 := by simpa using hnz 0 (by omega)
      have hih := ih (a := a + 1) (n := n) (by omega) (by rw [← hz]; congr 1; omega)
        fun k hk => by have := hnz (k + 1) (by omega); rwa [show a + (k + 1) = a + 1 + k by omega] at this
      simp only [Memory.scan, h0, if_false, hih, List.range_succ_eq_map, List.map_cons, List.map_map]
      simp [Function.comp_def, Nat.add_assoc, Nat.add_comm 1]

/-- The scan of memory without a zero byte among the bytes left. -/
theorem Memory.scan_without_nul {m : Memory} {left a : Nat} (hnz : ∀ k, k < left → m.read (a + k) ≠ 0) :
    m.scan left a = ((List.range left).map (fun k => m.read (a + k)), false) := by
  induction left generalizing a with
  | zero => rfl
  | succ left ih =>
    have h0 : m.read a ≠ 0 := by simpa using hnz 0 (by omega)
    have hih := ih (a := a + 1) fun k hk => by
      have := hnz (k + 1) (by omega); rwa [show a + (k + 1) = a + 1 + k by omega] at this
    simp only [Memory.scan, h0, if_false, hih, List.range_succ_eq_map, List.map_cons, List.map_map]
    simp [Function.comp_def, Nat.add_assoc, Nat.add_comm 1]

/-! ### Loading a file -/

/-- A loaded file is in canonical form. -/
theorem loadFrom_wf (file : List Byte) (a : Nat) : (loadFrom a file).wfFrom a = true := by
  induction file generalizing a with
  | nil => rfl
  | cons b file ih =>
    simp only [loadFrom]
    split
    · next ha =>
      split
      · exact Memory.wfFrom_mono (ih (a + 1)) (by omega)
      · next hb => simp [Memory.wfFrom, ha, hb, ih]
    · rfl

/-- The bytes of a file stand from `a` up, to the top of memory, and nothing else does. -/
theorem loadFrom_read (file : List Byte) (a k : Nat) (hk : k < 65536) :
    (loadFrom a file).read k = if a ≤ k then file.getD (k - a) 0 else 0 := by
  induction file generalizing a with
  | nil => simp [loadFrom, Memory.read, Config.unlistedByte]
  | cons b file ih =>
    have hcons : ∀ m : Memory, m.read a = 0 →
        Memory.read (if b = Config.unlistedByte then m else (a, b) :: m) k = if a = k then b else m.read k := by
      intro m hm
      split
      · next hb =>
        split
        · next hak => rw [← hak, hm, hb]; rfl
        · rfl
      · simp [Memory.read]
    by_cases ha : a < 65536
    · rw [show loadFrom a (b :: file) =
          (if b = Config.unlistedByte then loadFrom (a + 1) file else (a, b) :: loadFrom (a + 1) file) from if_pos ha,
        hcons _ (Memory.read_below (loadFrom_wf file (a + 1)) (by omega)), ih]
      by_cases hak : a = k
      · subst hak; simp
      · by_cases hlt : a + 1 ≤ k
        · rw [if_neg hak, if_pos hlt, if_pos (by omega), show k - a = (k - (a + 1)) + 1 by omega]; simp
        · rw [if_neg hak, if_neg hlt, if_neg (by omega)]
    · rw [show loadFrom a (b :: file) = [] from if_neg ha, if_neg (by omega)]; rfl

end Sys2Proof.Machine
end

