-- ==== Sys2Proof/Laws/State.lean ====
section
/-! SUPPORT. The small lemmas of State: what each update leaves in each field, and registers read after a write. -/

namespace Sys2Proof.Machine

@[simp] theorem Regs.read_write_same (g : Regs) (r : Reg) (v : Word) : (g.write r v).read r = v := by
  cases r <;> rfl

theorem Regs.read_write_other (g : Regs) {r q : Reg} (v : Word) (h : q ≠ r) : (g.write r v).read q = g.read q := by
  cases r <;> cases q <;> first | rfl | exact absurd rfl h

@[simp] theorem State.reg_setReg_same (s : State) (r : Reg) (v : Word) : (s.setReg r v).reg r = v :=
  Regs.read_write_same s.regs r v

theorem State.reg_setReg_other (s : State) {r q : Reg} (v : Word) (h : q ≠ r) : (s.setReg r v).reg q = s.reg q :=
  Regs.read_write_other s.regs v h

@[simp] theorem State.reg_mk (g : Regs) (pc : Word) (m : Memory) (run : RunState) (h : HaltRecord) (o : List Event)
    (c : Option StepCeiling) (r : Reg) : (State.mk g pc m run h o c).reg r = g.read r := rfl

@[simp] theorem State.setReg_regs (s : State) (r : Reg) (v : Word) : (s.setReg r v).regs = s.regs.write r v := rfl
@[simp] theorem State.setReg_pc (s : State) (r : Reg) (v : Word) : (s.setReg r v).pc = s.pc := rfl
@[simp] theorem State.setReg_mem (s : State) (r : Reg) (v : Word) : (s.setReg r v).mem = s.mem := rfl
@[simp] theorem State.setReg_run (s : State) (r : Reg) (v : Word) : (s.setReg r v).run = s.run := rfl
@[simp] theorem State.setReg_halt (s : State) (r : Reg) (v : Word) : (s.setReg r v).halt = s.halt := rfl
@[simp] theorem State.setReg_out (s : State) (r : Reg) (v : Word) : (s.setReg r v).out = s.out := rfl
@[simp] theorem State.setReg_ceiling (s : State) (r : Reg) (v : Word) : (s.setReg r v).ceiling = s.ceiling := rfl
@[simp] theorem State.setReg_stepLimit (s : State) (r : Reg) (v : Word) : (s.setReg r v).stepLimit = s.stepLimit := rfl

@[simp] theorem State.emit_regs (s : State) (es : List Event) : (s.emit es).regs = s.regs := rfl
@[simp] theorem State.emit_pc (s : State) (es : List Event) : (s.emit es).pc = s.pc := rfl
@[simp] theorem State.emit_mem (s : State) (es : List Event) : (s.emit es).mem = s.mem := rfl
@[simp] theorem State.emit_run (s : State) (es : List Event) : (s.emit es).run = s.run := rfl
@[simp] theorem State.emit_halt (s : State) (es : List Event) : (s.emit es).halt = s.halt := rfl
@[simp] theorem State.emit_out (s : State) (es : List Event) : (s.emit es).out = s.out ++ es := rfl
@[simp] theorem State.emit_ceiling (s : State) (es : List Event) : (s.emit es).ceiling = s.ceiling := rfl
@[simp] theorem State.emit_stepLimit (s : State) (es : List Event) : (s.emit es).stepLimit = s.stepLimit := rfl
@[simp] theorem State.emit_reg (s : State) (es : List Event) (r : Reg) : (s.emit es).reg r = s.reg r := rfl

@[simp] theorem State.haltWith_regs (s : State) (h : HaltRecord) : (s.haltWith h).regs = s.regs := rfl
@[simp] theorem State.haltWith_pc (s : State) (h : HaltRecord) : (s.haltWith h).pc = s.pc := rfl
@[simp] theorem State.haltWith_mem (s : State) (h : HaltRecord) : (s.haltWith h).mem = s.mem := rfl
@[simp] theorem State.haltWith_run (s : State) (h : HaltRecord) : (s.haltWith h).run = .halted := rfl
@[simp] theorem State.haltWith_halt (s : State) (h : HaltRecord) : (s.haltWith h).halt = h := rfl
@[simp] theorem State.haltWith_out (s : State) (h : HaltRecord) : (s.haltWith h).out = s.out := rfl
@[simp] theorem State.haltWith_ceiling (s : State) (h : HaltRecord) : (s.haltWith h).ceiling = s.ceiling := rfl
@[simp] theorem State.haltWith_stepLimit (s : State) (h : HaltRecord) : (s.haltWith h).stepLimit = s.stepLimit := rfl
@[simp] theorem State.haltWith_reg (s : State) (h : HaltRecord) (r : Reg) : (s.haltWith h).reg r = s.reg r := rfl

@[simp] theorem StepCeiling.count_limit (c : StepCeiling) : c.count.limit = c.limit := rfl
@[simp] theorem StepCeiling.count_steps (c : StepCeiling) : c.count.steps = c.steps + 1 := rfl

@[simp] theorem State.stepLimit_mk (g : Regs) (pc : Word) (m : Memory) (run : RunState) (h : HaltRecord)
    (o : List Event) (c : Option StepCeiling) : (State.mk g pc m run h o c).stepLimit = c.map StepCeiling.limit := rfl
@[simp] theorem State.map_limit (s : State) : s.ceiling.map StepCeiling.limit = s.stepLimit := rfl

/-- A state without a limit and one with it, by the field. -/
theorem State.stepLimit_eq_none {s : State} : s.stepLimit = none ↔ s.ceiling = none := Option.map_eq_none_iff
theorem State.stepLimit_of_ceiling {s : State} {c : StepCeiling} (h : s.ceiling = some c) : s.stepLimit = some c.limit := by
  simp [State.stepLimit, h]

/-- Counting leaves the limit. -/
theorem State.stepLimit_of_count {s t : State} (h : t.ceiling = s.ceiling.map StepCeiling.count) :
    t.stepLimit = s.stepLimit := by
  unfold State.stepLimit; rw [h]; cases s.ceiling <;> rfl

end Sys2Proof.Machine
end

