-- ==== Sys2Proof/Laws/Ops.lean ====
section
/-! SUPPORT. What the shared operations do: the commits of a step, field by field and by case, and the operand forms as
plain integers. -/

namespace Sys2Proof.Machine

/-! ### The commit of `Continue` -/

@[simp] theorem commitContinue_regs (b a : State) (t : Int) : (commitContinue b a t).regs = a.regs := by
  unfold commitContinue; split <;> rfl

@[simp] theorem commitContinue_mem (b a : State) (t : Int) : (commitContinue b a t).mem = a.mem := by
  unfold commitContinue; split <;> rfl

@[simp] theorem commitContinue_out (b a : State) (t : Int) : (commitContinue b a t).out = a.out := by
  unfold commitContinue; split <;> rfl

@[simp] theorem commitContinue_ceiling (b a : State) (t : Int) :
    (commitContinue b a t).ceiling = b.ceiling.map StepCeiling.count := by
  unfold commitContinue; split <;> rfl

@[simp] theorem commitContinue_stepLimit (b a : State) (t : Int) : (commitContinue b a t).stepLimit = b.stepLimit :=
  State.stepLimit_of_count (commitContinue_ceiling b a t)

@[simp] theorem commitContinue_reg (b a : State) (t : Int) (r : Reg) : (commitContinue b a t).reg r = a.reg r :=
  congrArg (fun g : Regs => g.read r) (commitContinue_regs b a t)

/-- A target inside memory becomes pc. -/
theorem commitContinue_inside (b a : State) {t : Int} (h : 0 ≤ t ∧ t < 65536) :
    commitContinue b a t = { a with ceiling := b.ceiling.map StepCeiling.count, pc := BitVec.ofInt 16 t } :=
  if_pos ((inBounds_iff t 1).mpr ⟨h.1, by omega⟩)

/-- A target outside memory ends the run. -/
theorem commitContinue_outside (b a : State) {t : Int} (h : ¬(0 ≤ t ∧ t < 65536)) :
    commitContinue b a t = { a with
      ceiling := b.ceiling.map StepCeiling.count, run := .halted,
      halt := { reason := .endOfMemory, faultPc := b.pc, faultWord := b.wordAtPc, faultAddr := 0, faultWidth := 0, haltTarget := t } } :=
  if_neg fun hb => h (by have := (inBounds_iff t 1).mp hb; omega)

theorem toNat_ofInt_inside {t : Int} (h : 0 ≤ t ∧ t < 65536) : ((BitVec.ofInt 16 t).toNat : Int) = t := by
  rw [BitVec.toNat_ofInt]; omega

/-- The pc a target inside memory becomes. -/
theorem commitContinue_pc_inside (b a : State) {t : Int} (h : 0 ≤ t ∧ t < 65536) :
    ((commitContinue b a t).pc.toNat : Int) = t := by
  rw [commitContinue_inside b a h]; exact toNat_ofInt_inside h

theorem commitContinue_run_inside (b a : State) {t : Int} (h : 0 ≤ t ∧ t < 65536) :
    (commitContinue b a t).run = a.run := by rw [commitContinue_inside b a h]

theorem commitContinue_halt_inside (b a : State) {t : Int} (h : 0 ≤ t ∧ t < 65536) :
    (commitContinue b a t).halt = a.halt := by rw [commitContinue_inside b a h]

@[simp] theorem commitNext_eq (b a : State) : commitNext b a = commitContinue b a (b.pc.toNat + 2) := rfl

/-! ### The commits that halt -/

@[simp] theorem commitHalt_eq (b : State) :
    commitHalt b = { b with
      run := .halted,
      halt := { reason := .haltEcall, faultPc := b.pc, faultWord := b.wordAtPc, faultAddr := 0, faultWidth := 0, haltTarget := 0 } } :=
  rfl

@[simp] theorem commitOutOfBounds_eq (b a : State) (ea : Int) (n : Nat) :
    commitOutOfBounds b a ea n = { a with
      run := .halted,
      halt := { reason := .faultOutOfBounds, faultPc := b.pc, faultWord := b.wordAtPc, faultAddr := ea, faultWidth := n, haltTarget := 0 } } :=
  rfl

/-! ### Operand forms as integers -/

theorem toInt_signExtend_of_le {n : Nat} (b : BitVec n) (h : n ≤ 16) : (b.signExtend 16).toInt = b.toInt :=
  BitVec.toInt_signExtend_of_le h

/-- A field with a zero bit below it is twice the field. -/
theorem toInt_append_zero {n : Nat} (b : BitVec n) : (b ++ 0#1).toInt = 2 * b.toInt := by
  rw [BitVec.toInt_append]
  split
  · next h => obtain rfl : n = 0 := by simpa using h
              simp [BitVec.eq_nil b]
  · simp [Int.mul_comm]

@[simp] theorem immSigned_toInt (imm7 : BitVec 7) : (immSigned imm7).toInt = imm7.toInt :=
  toInt_signExtend_of_le imm7 (by decide)

@[simp] theorem branchOffset_toInt (offset4 : BitVec 4) : (branchOffset offset4).toInt = 2 * offset4.toInt := by
  unfold branchOffset; rw [toInt_signExtend_of_le _ (by decide), toInt_append_zero]

@[simp] theorem loadStoreOffset_toInt (offset4 : BitVec 4) : (loadStoreOffset offset4).toInt = offset4.toInt :=
  toInt_signExtend_of_le offset4 (by decide)

@[simp] theorem jalOffset_toInt (offset13 : BitVec 13) : (jalOffset offset13).toInt = 2 * offset13.toInt := by
  unfold jalOffset; rw [toInt_signExtend_of_le _ (by decide), toInt_append_zero]

@[simp] theorem jalrOffset_toInt (offset7 : BitVec 7) : (jalrOffset offset7).toInt = offset7.toInt :=
  toInt_signExtend_of_le offset7 (by decide)

theorem effectiveAddress_eq (base : Word) (offset4 : BitVec 4) :
    effectiveAddress base offset4 = base.toNat + offset4.toInt := by simp [effectiveAddress]

theorem branchTarget_eq (pc : Word) (offset4 : BitVec 4) :
    branchTarget pc offset4 = pc.toNat + 2 * offset4.toInt := by simp [branchTarget]

theorem jalTarget_eq (pc : Word) (offset13 : BitVec 13) :
    jalTarget pc offset13 = pc.toNat + 2 * offset13.toInt := by simp [jalTarget]

theorem jalrTarget_eq (base : Word) (offset7 : BitVec 7) :
    jalrTarget base offset7 = (base.toNat + offset7.toInt) - (base.toNat + offset7.toInt) % 2 := by simp [jalrTarget]

theorem immShift_eq (imm7 : BitVec 7) : immShift imm7 = imm7.toNat % 16 := by simp [immShift]

theorem regShift_eq (v : Word) : regShift v = v.toNat % 16 := by simp [regShift]

end Sys2Proof.Machine
end

