-- ==== Sys2Proof/Laws/Exec.lean ====
section
/-! SUPPORT. What an instruction can do, said once: it answers a next state, and that state comes from one of the three
commits; and what a step can do, case by case. Later proofs cite these instead of unfolding `exec` and `step`. -/

namespace Sys2Proof.Machine

/-- Every instruction answers a next state, in every state. -/
theorem exec_next (i : Instr) (s : State) : ∃ t, exec i s = .next t := by
  cases i <;> exact ⟨_, rfl⟩

/-- What an instruction's effect leaves alone before its commit: all but registers, memory and output, with memory kept
canonical and the output only added to. -/
structure Effect (s after : State) : Prop where
  pc : after.pc = s.pc
  run : after.run = s.run
  halt : after.halt = s.halt
  ceiling : after.ceiling = s.ceiling
  memory : s.mem.wf = true → after.mem.wf = true
  out : ∃ es, after.out = s.out ++ es

theorem Effect.stepLimit {s after : State} (h : Effect s after) : after.stepLimit = s.stepLimit := by
  unfold State.stepLimit; rw [h.ceiling]

theorem Effect.refl (s : State) : Effect s s := ⟨rfl, rfl, rfl, rfl, id, [], by simp⟩

theorem Effect.setReg (s : State) (r : Reg) (v : Word) : Effect s (s.setReg r v) :=
  ⟨rfl, rfl, rfl, rfl, id, [], by simp⟩

theorem Effect.emit (s : State) (es : List Event) : Effect s (s.emit es) :=
  ⟨rfl, rfl, rfl, rfl, id, es, rfl⟩

theorem Effect.store (s : State) (m : Memory) (h : s.mem.wf = true → m.wf = true) : Effect s { s with mem := m } :=
  ⟨rfl, rfl, rfl, rfl, h, [], by simp⟩

/-- The ways an instruction ends: it goes on to a target, an even one where its own address is even; `ecall 3` halts;
an access fails its check with registers and memory as they were, and output too unless it is `ecall 5`. -/
inductive Ending (i : Instr) (s : State) : State → Prop where
  | continues (after : State) (target : Int) (effect : Effect s after)
      (even : s.pc.toNat % 2 = 0 → target % 2 = 0) : Ending i s (commitContinue s after target)
  | halts (isHalt : i = .ecallHalt) : Ending i s (commitHalt s)
  | faults (after : State) (ea : Int) (n : Nat) (effect : Effect s after) (regs : after.regs = s.regs)
      (mem : after.mem = s.mem) (out : i ≠ .ecallPrintString → after.out = s.out) :
      Ending i s (commitOutOfBounds s after ea n)

theorem ending_next (i : Instr) (s after : State) (effect : Effect s after) : Ending i s (commitNext s after) :=
  .continues after _ effect fun h => by simp only [State.sequentialPc]; omega

theorem ending_registerOp (i : Instr) (op : Word → Word → Word) (rd rs2 : Reg) (s : State) :
    Ending i s (registerOp op rd rs2 s) := ending_next i s _ (.setReg s rd _)

theorem ending_immediateOp (i : Instr) (f : Word → Word) (rd : Reg) (s : State) :
    Ending i s (immediateOp f rd s) := ending_next i s _ (.setReg s rd _)

theorem ending_branchOn (i : Instr) (cond : Word → Word → Bool) (rs1 rs2 : Reg) (offset4 : BitVec 4) (s : State) :
    Ending i s (branchOn cond rs1 rs2 offset4 s) :=
  .continues s _ (.refl s) fun h => by
    rw [branchTarget_eq]; simp only [State.sequentialPc]; split <;> omega

theorem ending_finishLoad (i : Instr) (rd : Reg) (ea : Int) (n : Nat) (v : Option Word) (s : State) :
    Ending i s (finishLoad rd ea n v s) := by
  cases v with
  | some v => exact ending_next i s _ (.setReg s rd v)
  | none => exact .faults s ea n (.refl s) rfl rfl fun _ => rfl

theorem ending_finishStore (i : Instr) (ea : Int) (n : Nat) (m : Option Memory) (s : State)
    (hm : ∀ m', m = some m' → s.mem.wf = true → m'.wf = true) : Ending i s (finishStore ea n m s) := by
  cases m with
  | some m => exact ending_next i s _ (.store s m (hm m rfl))
  | none => exact .faults s ea n (.refl s) rfl rfl fun _ => rfl

theorem ending_linkAndGo (i : Instr) (rd : Reg) (target : Int) (s : State)
    (even : s.pc.toNat % 2 = 0 → target % 2 = 0) : Ending i s (linkAndGo rd target s) :=
  .continues _ target (.setReg s rd _) even

theorem ending_printString (s : State) :
    Ending .ecallPrintString s (if (stringAtEcallReg s).2 then commitNext s (s.emit ((stringAtEcallReg s).1.map .printByte))
      else commitOutOfBounds s (s.emit ((stringAtEcallReg s).1.map .printByte)) Config.memSize 1) := by
  split
  · exact ending_next _ s _ (.emit s _)
  · exact .faults _ _ 1 (.emit s _) rfl rfl fun h => absurd rfl h

/-- An instruction that answers a next state has come to it by one of the three endings. -/
theorem exec_ending {i : Instr} {s t : State} (h : exec i s = .next t) : Ending i s t := by
  cases i <;> cases h
  case add => exact ending_registerOp _ _ _ _ _
  case sub => exact ending_registerOp _ _ _ _ _
  case and => exact ending_registerOp _ _ _ _ _
  case or => exact ending_registerOp _ _ _ _ _
  case xor => exact ending_registerOp _ _ _ _ _
  case sll => exact ending_registerOp _ _ _ _ _
  case srl => exact ending_registerOp _ _ _ _ _
  case sra => exact ending_registerOp _ _ _ _ _
  case slt => exact ending_registerOp _ _ _ _ _
  case sltu => exact ending_registerOp _ _ _ _ _
  case addi => exact ending_immediateOp _ _ _ _
  case andi => exact ending_immediateOp _ _ _ _
  case ori => exact ending_immediateOp _ _ _ _
  case xori => exact ending_immediateOp _ _ _ _
  case slli => exact ending_immediateOp _ _ _ _
  case srli => exact ending_immediateOp _ _ _ _
  case srai => exact ending_immediateOp _ _ _ _
  case slti => exact ending_immediateOp _ _ _ _
  case beq => exact ending_branchOn _ _ _ _ _ _
  case bne => exact ending_branchOn _ _ _ _ _ _
  case blt => exact ending_branchOn _ _ _ _ _ _
  case bge => exact ending_branchOn _ _ _ _ _ _
  case bltu => exact ending_branchOn _ _ _ _ _ _
  case bgeu => exact ending_branchOn _ _ _ _ _ _
  case sb => exact ending_finishStore _ _ _ _ _ fun m' hm => (Memory.write1_spec hm).2.2.2
  case sw => exact ending_finishStore _ _ _ _ _ fun m' hm => (Memory.write2_spec hm).2.2.2.2
  case lb => exact ending_finishLoad _ _ _ _ _ _
  case lw => exact ending_finishLoad _ _ _ _ _ _
  case lbu => exact ending_finishLoad _ _ _ _ _ _
  case lwu => exact ending_finishLoad _ _ _ _ _ _
  case jal => exact ending_linkAndGo _ _ _ _ fun h => by rw [jalTarget_eq]; omega
  case jalr => exact ending_linkAndGo _ _ _ _ fun _ => by rw [jalrTarget_eq]; omega
  case lui => exact ending_next _ _ _ (.setReg _ _ _)
  case ecallPrintInt => exact ending_next _ _ _ (.emit _ _)
  case ecallHalt => exact .halts rfl
  case ecallPrintString => exact ending_printString s
  case ecallUnknown0 => exact ending_next _ _ _ (.emit _ _)
  case ecallUnknown2 => exact ending_next _ _ _ (.emit _ _)
  case ecallUnknown4 => exact ending_next _ _ _ (.emit _ _)
  case ecallUnknown6 => exact ending_next _ _ _ (.emit _ _)
  case ecallUnknown7 => exact ending_next _ _ _ (.emit _ _)

/-! ### The step -/

theorem limitReached_iff (s : State) : s.limitReached = true ↔ ∃ c, s.ceiling = some c ∧ c.limit ≤ c.steps := by
  unfold State.limitReached; split <;> simp_all

theorem fetch_eq_some {s : State} {w : Word} :
    s.fetch = some w ↔ s.pc.toNat + 2 ≤ 65536 ∧ s.mem.read (s.pc.toNat + 1) ++ s.mem.read s.pc.toNat = w := by
  unfold State.fetch
  rw [Memory.read2_eq_some]
  simp only [Int.toNat_natCast]
  constructor <;> rintro ⟨h, rfl⟩ <;> exact ⟨by omega, rfl⟩

theorem fetch_eq_none {s : State} : s.fetch = none ↔ ¬(s.pc.toNat + 2 ≤ 65536) := by
  unfold State.fetch
  rw [Memory.read2_eq_none]
  omega

/-- What a step can do, over any decoder: the four ways of 60_exceptions.md R158, all from a running state. -/
theorem cycle_cases {dec : Word → DecodeResult} {s t : State} (h : cycle dec s = .next t) :
    s.run = .running ∧
    ((s.limitReached = true ∧ t = haltAtLimit s) ∨
     (s.limitReached = false ∧ s.fetch = none ∧ t = haltAtFetch s) ∨
     (s.limitReached = false ∧ ∃ w e, s.fetch = some w ∧ dec w = .error e ∧ t = haltAtDecode e s) ∨
     (s.limitReached = false ∧ ∃ w i, s.fetch = some w ∧ dec w = .ok i ∧ exec i s = .next t)) := by
  unfold cycle at h
  split at h
  · cases h
  · next hrun =>
    refine ⟨hrun, ?_⟩
    split at h
    · next hl => cases h; exact .inl ⟨hl, rfl⟩
    · next hl =>
      have hl : s.limitReached = false := by simpa using hl
      refine .inr ?_
      unfold fetchAndRun at h
      split at h
      · next hf => cases h; exact .inl ⟨hl, hf, rfl⟩
      · next w hf =>
        split at h
        · next e he => cases h; exact .inr (.inl ⟨hl, w, e, hf, he, rfl⟩)
        · next i hi => exact .inr (.inr ⟨hl, w, i, hf, hi, h⟩)

/-- `cycle_cases` for the core's own step. -/
theorem step_cases {s t : State} (h : step s = .next t) :
    s.run = .running ∧
    ((s.limitReached = true ∧ t = haltAtLimit s) ∨
     (s.limitReached = false ∧ s.fetch = none ∧ t = haltAtFetch s) ∨
     (s.limitReached = false ∧ ∃ w e, s.fetch = some w ∧ decode w = .error e ∧ t = haltAtDecode e s) ∨
     (s.limitReached = false ∧ ∃ w i, s.fetch = some w ∧ decode w = .ok i ∧ exec i s = .next t)) :=
  cycle_cases h

/-- A running core below its limit runs what it fetched and decoded. -/
theorem cycle_of_decode {dec : Word → DecodeResult} {s : State} {w : Word} {i : Instr} (hrun : s.run = .running)
    (hl : s.limitReached = false) (hf : s.fetch = some w) (hd : dec w = .ok i) : cycle dec s = exec i s := by
  simp [cycle, fetchAndRun, hrun, hl, hf, hd]

end Sys2Proof.Machine
end

