-- ==== Sys2Proof/Laws/Forms.lean ====
section
/-! SUPPORT. What each shared instruction form does, as one commit: the registers and memory it leaves and the target it
goes on to, with addresses and targets as plain integers. -/

namespace Sys2Proof.Machine

theorem registerOp_eq (op : Word → Word → Word) (rd rs2 : Reg) (s : State) :
    registerOp op rd rs2 s = commitContinue s (s.setReg rd (op (s.reg rd) (s.reg rs2))) (s.pc.toNat + 2) := rfl

theorem immediateOp_eq (f : Word → Word) (rd : Reg) (s : State) :
    immediateOp f rd s = commitContinue s (s.setReg rd (f (s.reg rd))) (s.pc.toNat + 2) := rfl

theorem branchOn_taken {cond : Word → Word → Bool} {rs1 rs2 : Reg} {s : State} (offset4 : BitVec 4)
    (h : cond (s.reg rs1) (s.reg rs2) = true) :
    branchOn cond rs1 rs2 offset4 s = commitContinue s s (s.pc.toNat + 2 * offset4.toInt) := by
  rw [branchOn, if_pos h, branchTarget_eq]

theorem branchOn_not_taken {cond : Word → Word → Bool} {rs1 rs2 : Reg} {s : State} (offset4 : BitVec 4)
    (h : cond (s.reg rs1) (s.reg rs2) = false) :
    branchOn cond rs1 rs2 offset4 s = commitContinue s s (s.pc.toNat + 2) := by
  rw [branchOn, if_neg (by simp [h])]; rfl

theorem linkAndGo_eq (rd : Reg) (target : Int) (s : State) :
    linkAndGo rd target s = commitContinue s (s.setReg rd (BitVec.ofNat 16 (s.pc.toNat + 2))) target := rfl

theorem loadByte_admitted (ext : Byte → Word) (rd : Reg) {rs1 : Reg} {offset4 : BitVec 4} {s : State} {ea : Int}
    (hea : (s.reg rs1).toNat + offset4.toInt = ea) (h : 0 ≤ ea ∧ ea + 1 ≤ 65536) :
    loadByte ext rd rs1 offset4 s =
      commitContinue s (s.setReg rd (ext (s.mem.read ea.toNat))) (s.pc.toNat + 2) := by
  simp only [loadByte, effectiveAddress_eq, hea, Memory.read1_eq_some.mpr ⟨h, rfl⟩]; rfl

theorem loadByte_out_of_bounds (ext : Byte → Word) (rd : Reg) {rs1 : Reg} {offset4 : BitVec 4} {s : State} {ea : Int}
    (hea : (s.reg rs1).toNat + offset4.toInt = ea) (h : ¬(0 ≤ ea ∧ ea + 1 ≤ 65536)) :
    loadByte ext rd rs1 offset4 s = commitOutOfBounds s s ea 1 := by
  simp only [loadByte, effectiveAddress_eq, hea, Memory.read1_eq_none.mpr h]; rfl

theorem loadHalf_admitted (rd : Reg) {rs1 : Reg} {offset4 : BitVec 4} {s : State} {ea : Int}
    (hea : (s.reg rs1).toNat + offset4.toInt = ea) (h : 0 ≤ ea ∧ ea + 2 ≤ 65536) :
    loadHalf rd rs1 offset4 s =
      commitContinue s (s.setReg rd (s.mem.read (ea.toNat + 1) ++ s.mem.read ea.toNat)) (s.pc.toNat + 2) := by
  simp only [loadHalf, effectiveAddress_eq, hea, Memory.read2_eq_some.mpr ⟨h, rfl⟩]; rfl

theorem loadHalf_out_of_bounds (rd : Reg) {rs1 : Reg} {offset4 : BitVec 4} {s : State} {ea : Int}
    (hea : (s.reg rs1).toNat + offset4.toInt = ea) (h : ¬(0 ≤ ea ∧ ea + 2 ≤ 65536)) :
    loadHalf rd rs1 offset4 s = commitOutOfBounds s s ea 2 := by
  simp only [loadHalf, effectiveAddress_eq, hea, Memory.read2_eq_none.mpr h]; rfl

theorem execSb_admitted (rs2 : Reg) {rs1 : Reg} {offset4 : BitVec 4} {s : State} {ea : Int}
    (hea : (s.reg rs1).toNat + offset4.toInt = ea) (h : 0 ≤ ea ∧ ea + 1 ≤ 65536) :
    ∃ m, s.mem.write1 ea (lowByte (s.reg rs2)) = some m ∧
      execSb rs2 rs1 offset4 s = .next (commitContinue s { s with mem := m } (s.pc.toNat + 2)) := by
  cases e : s.mem.write1 ea (lowByte (s.reg rs2)) with
  | none => exact absurd h (Memory.write1_eq_none.mp e)
  | some m => exact ⟨m, rfl, by simp only [execSb, effectiveAddress_eq, hea, e]; rfl⟩

theorem execSb_out_of_bounds (rs2 : Reg) {rs1 : Reg} {offset4 : BitVec 4} {s : State} {ea : Int}
    (hea : (s.reg rs1).toNat + offset4.toInt = ea) (h : ¬(0 ≤ ea ∧ ea + 1 ≤ 65536)) :
    execSb rs2 rs1 offset4 s = .next (commitOutOfBounds s s ea 1) := by
  simp only [execSb, effectiveAddress_eq, hea, Memory.write1_eq_none.mpr h]; rfl

theorem execSw_admitted (rs2 : Reg) {rs1 : Reg} {offset4 : BitVec 4} {s : State} {ea : Int}
    (hea : (s.reg rs1).toNat + offset4.toInt = ea) (h : 0 ≤ ea ∧ ea + 2 ≤ 65536) :
    ∃ m, s.mem.write2 ea (s.reg rs2) = some m ∧
      execSw rs2 rs1 offset4 s = .next (commitContinue s { s with mem := m } (s.pc.toNat + 2)) := by
  cases e : s.mem.write2 ea (s.reg rs2) with
  | none => exact absurd h (Memory.write2_eq_none.mp e)
  | some m => exact ⟨m, rfl, by simp only [execSw, effectiveAddress_eq, hea, e]; rfl⟩

theorem execSw_out_of_bounds (rs2 : Reg) {rs1 : Reg} {offset4 : BitVec 4} {s : State} {ea : Int}
    (hea : (s.reg rs1).toNat + offset4.toInt = ea) (h : ¬(0 ≤ ea ∧ ea + 2 ≤ 65536)) :
    execSw rs2 rs1 offset4 s = .next (commitOutOfBounds s s ea 2) := by
  simp only [execSw, effectiveAddress_eq, hea, Memory.write2_eq_none.mpr h]; rfl

end Sys2Proof.Machine
end

