-- ==== Sys2Proof/Laws/PerInstr.lean ====
section
/-! SUPPORT. One lemma per instruction: its encoded words carry the fixed bits its row of spec/opcode_table.json gives
it, under the row's mask. -/

namespace Sys2Proof.Laws

/-- The mask of an instruction's row in spec/opcode_table.json. -/
def rowMask : Instr → Word
  | .add _ _ => 0xF03F#16
  | .sub _ _ => 0xF03F#16
  | .and _ _ => 0xF03F#16
  | .or _ _ => 0xF03F#16
  | .xor _ _ => 0xF03F#16
  | .sll _ _ => 0xF03F#16
  | .srl _ _ => 0xF03F#16
  | .sra _ _ => 0xF03F#16
  | .slt _ _ => 0xF03F#16
  | .sltu _ _ => 0xF03F#16
  | .addi _ _ => 0x003F#16
  | .andi _ _ => 0x003F#16
  | .ori _ _ => 0x003F#16
  | .xori _ _ => 0x003F#16
  | .slli _ _ => 0x003F#16
  | .srli _ _ => 0x003F#16
  | .srai _ _ => 0x003F#16
  | .slti _ _ => 0x003F#16
  | .beq _ _ _ => 0x003F#16
  | .bne _ _ _ => 0x003F#16
  | .blt _ _ _ => 0x003F#16
  | .bge _ _ _ => 0x003F#16
  | .bltu _ _ _ => 0x003F#16
  | .bgeu _ _ _ => 0x003F#16
  | .sb _ _ _ => 0x003F#16
  | .sw _ _ _ => 0x003F#16
  | .lb _ _ _ => 0x003F#16
  | .lw _ _ _ => 0x003F#16
  | .lbu _ _ _ => 0x003F#16
  | .lwu _ _ _ => 0x003F#16
  | .jal _ _ => 0x0007#16
  | .jalr _ _ _ => 0x0007#16
  | .lui _ _ => 0x0007#16
  | .ecallPrintInt => 0x003F#16
  | .ecallHalt => 0x003F#16
  | .ecallPrintString => 0x003F#16
  | .ecallUnknown0 => 0x003F#16
  | .ecallUnknown2 => 0x003F#16
  | .ecallUnknown4 => 0x003F#16
  | .ecallUnknown6 => 0x003F#16
  | .ecallUnknown7 => 0x003F#16

/-- The match value of an instruction's row in spec/opcode_table.json. -/
def rowMatch : Instr → Word
  | .add _ _ => 0x0000#16
  | .sub _ _ => 0x1000#16
  | .and _ _ => 0x2000#16
  | .or _ _ => 0x3000#16
  | .xor _ _ => 0x4000#16
  | .sll _ _ => 0x5000#16
  | .srl _ _ => 0x6000#16
  | .sra _ _ => 0x7000#16
  | .slt _ _ => 0x8000#16
  | .sltu _ _ => 0x9000#16
  | .addi _ _ => 0x0001#16
  | .andi _ _ => 0x0009#16
  | .ori _ _ => 0x0011#16
  | .xori _ _ => 0x0019#16
  | .slli _ _ => 0x0021#16
  | .srli _ _ => 0x0029#16
  | .srai _ _ => 0x0031#16
  | .slti _ _ => 0x0039#16
  | .beq _ _ _ => 0x0002#16
  | .bne _ _ _ => 0x000A#16
  | .blt _ _ _ => 0x0012#16
  | .bge _ _ _ => 0x001A#16
  | .bltu _ _ _ => 0x0022#16
  | .bgeu _ _ _ => 0x002A#16
  | .sb _ _ _ => 0x0003#16
  | .sw _ _ _ => 0x000B#16
  | .lb _ _ _ => 0x0013#16
  | .lw _ _ _ => 0x001B#16
  | .lbu _ _ _ => 0x0023#16
  | .lwu _ _ _ => 0x002B#16
  | .jal _ _ => 0x0004#16
  | .jalr _ _ _ => 0x0005#16
  | .lui _ _ => 0x0006#16
  | .ecallPrintInt => 0x000F#16
  | .ecallHalt => 0x001F#16
  | .ecallPrintString => 0x002F#16
  | .ecallUnknown0 => 0x0007#16
  | .ecallUnknown2 => 0x0017#16
  | .ecallUnknown4 => 0x0027#16
  | .ecallUnknown6 => 0x0037#16
  | .ecallUnknown7 => 0x003F#16

/-- A mask that keeps nothing above its low `n` bits sees only the low `n` bits of a word. -/
theorem and_of_low {m n : Nat} (x : BitVec m) (y : BitVec n) (mask : BitVec n) :
    (x ++ y) &&& (0#m ++ mask) = 0#m ++ (y &&& mask) := by
  rw [BitVec.and_append]; simp

/-- What the 6-bit mask 0x3F sees of a word: its two low 3-bit fields. -/
theorem low_six {n : Nat} (x : BitVec n) (f g : BitVec 3) :
    (x ++ f ++ g) &&& (0#n ++ 7#3 ++ 7#3) = 0#n ++ f ++ g := by
  have h (k : Nat) (y : BitVec k) : y &&& BitVec.allOnes k = y := BitVec.and_allOnes
  rw [BitVec.and_append, BitVec.and_append, show (7#3 : BitVec 3) = BitVec.allOnes 3 from rfl, h, h]
  simp

/-- The instruction's encoded word has its row's fixed bits. -/
def OpcodeTable.Statement (i : Instr) : Prop := encode i &&& rowMask i = rowMatch i

theorem OpcodeTable.add (rd rs2 : Reg) : OpcodeTable.Statement (.add rd rs2) := by
  cases rd <;> cases rs2 <;> rfl

theorem OpcodeTable.sub (rd rs2 : Reg) : OpcodeTable.Statement (.sub rd rs2) := by
  cases rd <;> cases rs2 <;> rfl

theorem OpcodeTable.and (rd rs2 : Reg) : OpcodeTable.Statement (.and rd rs2) := by
  cases rd <;> cases rs2 <;> rfl

theorem OpcodeTable.or (rd rs2 : Reg) : OpcodeTable.Statement (.or rd rs2) := by
  cases rd <;> cases rs2 <;> rfl

theorem OpcodeTable.xor (rd rs2 : Reg) : OpcodeTable.Statement (.xor rd rs2) := by
  cases rd <;> cases rs2 <;> rfl

theorem OpcodeTable.sll (rd rs2 : Reg) : OpcodeTable.Statement (.sll rd rs2) := by
  cases rd <;> cases rs2 <;> rfl

theorem OpcodeTable.srl (rd rs2 : Reg) : OpcodeTable.Statement (.srl rd rs2) := by
  cases rd <;> cases rs2 <;> rfl

theorem OpcodeTable.sra (rd rs2 : Reg) : OpcodeTable.Statement (.sra rd rs2) := by
  cases rd <;> cases rs2 <;> rfl

theorem OpcodeTable.slt (rd rs2 : Reg) : OpcodeTable.Statement (.slt rd rs2) := by
  cases rd <;> cases rs2 <;> rfl

theorem OpcodeTable.sltu (rd rs2 : Reg) : OpcodeTable.Statement (.sltu rd rs2) := by
  cases rd <;> cases rs2 <;> rfl

theorem OpcodeTable.addi (rd : Reg) (imm7 : BitVec 7) : OpcodeTable.Statement (.addi rd imm7) :=
  low_six (imm7 ++ rd.bits) 0#3 1#3

theorem OpcodeTable.andi (rd : Reg) (imm7 : BitVec 7) : OpcodeTable.Statement (.andi rd imm7) :=
  low_six (imm7 ++ rd.bits) 1#3 1#3

theorem OpcodeTable.ori (rd : Reg) (imm7 : BitVec 7) : OpcodeTable.Statement (.ori rd imm7) :=
  low_six (imm7 ++ rd.bits) 2#3 1#3

theorem OpcodeTable.xori (rd : Reg) (imm7 : BitVec 7) : OpcodeTable.Statement (.xori rd imm7) :=
  low_six (imm7 ++ rd.bits) 3#3 1#3

theorem OpcodeTable.slli (rd : Reg) (imm7 : BitVec 7) : OpcodeTable.Statement (.slli rd imm7) :=
  low_six (imm7 ++ rd.bits) 4#3 1#3

theorem OpcodeTable.srli (rd : Reg) (imm7 : BitVec 7) : OpcodeTable.Statement (.srli rd imm7) :=
  low_six (imm7 ++ rd.bits) 5#3 1#3

theorem OpcodeTable.srai (rd : Reg) (imm7 : BitVec 7) : OpcodeTable.Statement (.srai rd imm7) :=
  low_six (imm7 ++ rd.bits) 6#3 1#3

theorem OpcodeTable.slti (rd : Reg) (imm7 : BitVec 7) : OpcodeTable.Statement (.slti rd imm7) :=
  low_six (imm7 ++ rd.bits) 7#3 1#3

theorem OpcodeTable.beq (rs1 rs2 : Reg) (offset4 : BitVec 4) : OpcodeTable.Statement (.beq rs1 rs2 offset4) :=
  low_six (offset4 ++ rs2.bits ++ rs1.bits) 0#3 2#3

theorem OpcodeTable.bne (rs1 rs2 : Reg) (offset4 : BitVec 4) : OpcodeTable.Statement (.bne rs1 rs2 offset4) :=
  low_six (offset4 ++ rs2.bits ++ rs1.bits) 1#3 2#3

theorem OpcodeTable.blt (rs1 rs2 : Reg) (offset4 : BitVec 4) : OpcodeTable.Statement (.blt rs1 rs2 offset4) :=
  low_six (offset4 ++ rs2.bits ++ rs1.bits) 2#3 2#3

theorem OpcodeTable.bge (rs1 rs2 : Reg) (offset4 : BitVec 4) : OpcodeTable.Statement (.bge rs1 rs2 offset4) :=
  low_six (offset4 ++ rs2.bits ++ rs1.bits) 3#3 2#3

theorem OpcodeTable.bltu (rs1 rs2 : Reg) (offset4 : BitVec 4) : OpcodeTable.Statement (.bltu rs1 rs2 offset4) :=
  low_six (offset4 ++ rs2.bits ++ rs1.bits) 4#3 2#3

theorem OpcodeTable.bgeu (rs1 rs2 : Reg) (offset4 : BitVec 4) : OpcodeTable.Statement (.bgeu rs1 rs2 offset4) :=
  low_six (offset4 ++ rs2.bits ++ rs1.bits) 5#3 2#3

theorem OpcodeTable.sb (rs2 rs1 : Reg) (offset4 : BitVec 4) : OpcodeTable.Statement (.sb rs2 rs1 offset4) :=
  low_six (offset4 ++ rs2.bits ++ rs1.bits) 0#3 3#3

theorem OpcodeTable.sw (rs2 rs1 : Reg) (offset4 : BitVec 4) : OpcodeTable.Statement (.sw rs2 rs1 offset4) :=
  low_six (offset4 ++ rs2.bits ++ rs1.bits) 1#3 3#3

theorem OpcodeTable.lb (rd rs1 : Reg) (offset4 : BitVec 4) : OpcodeTable.Statement (.lb rd rs1 offset4) :=
  low_six (offset4 ++ rd.bits ++ rs1.bits) 2#3 3#3

theorem OpcodeTable.lw (rd rs1 : Reg) (offset4 : BitVec 4) : OpcodeTable.Statement (.lw rd rs1 offset4) :=
  low_six (offset4 ++ rd.bits ++ rs1.bits) 3#3 3#3

theorem OpcodeTable.lbu (rd rs1 : Reg) (offset4 : BitVec 4) : OpcodeTable.Statement (.lbu rd rs1 offset4) :=
  low_six (offset4 ++ rd.bits ++ rs1.bits) 4#3 3#3

theorem OpcodeTable.lwu (rd rs1 : Reg) (offset4 : BitVec 4) : OpcodeTable.Statement (.lwu rd rs1 offset4) :=
  low_six (offset4 ++ rd.bits ++ rs1.bits) 5#3 3#3

theorem OpcodeTable.jal (rd : Reg) (offset13 : BitVec 13) : OpcodeTable.Statement (.jal rd offset13) :=
  and_of_low offset13 4#3 7#3

theorem OpcodeTable.jalr (rd rs1 : Reg) (offset7 : BitVec 7) : OpcodeTable.Statement (.jalr rd rs1 offset7) :=
  and_of_low (offset7 ++ rd.bits ++ rs1.bits) 5#3 7#3

theorem OpcodeTable.lui (rd : Reg) (imm12 : BitVec 12) : OpcodeTable.Statement (.lui rd imm12) :=
  and_of_low (imm12 ++ 0#1) 6#3 7#3

theorem OpcodeTable.ecallPrintInt : OpcodeTable.Statement .ecallPrintInt := rfl

theorem OpcodeTable.ecallHalt : OpcodeTable.Statement .ecallHalt := rfl

theorem OpcodeTable.ecallPrintString : OpcodeTable.Statement .ecallPrintString := rfl

theorem OpcodeTable.ecallUnknown0 : OpcodeTable.Statement .ecallUnknown0 := rfl

theorem OpcodeTable.ecallUnknown2 : OpcodeTable.Statement .ecallUnknown2 := rfl

theorem OpcodeTable.ecallUnknown4 : OpcodeTable.Statement .ecallUnknown4 := rfl

theorem OpcodeTable.ecallUnknown6 : OpcodeTable.Statement .ecallUnknown6 := rfl

theorem OpcodeTable.ecallUnknown7 : OpcodeTable.Statement .ecallUnknown7 := rfl

end Sys2Proof.Laws
end

