-- ==== Sys2Proof/Tests/Slice0.lean ====
section
/-! SUPPORT. The model's own tests: ill-formed terms refused, decoding of words written from the spec's encodings, one
step of each instruction on the spec's worked examples, and for every obligation with hypotheses a state that meets them.
Every expected value is the spec's: the rule or vector it comes from stands beside it. -/

namespace Sys2Proof.Tests

open Sys2Proof.Machine Sys2Proof.Safety

/-! ### Well-formedness (30_encoding.md R67, R69, R84) -/

theorem test_wellFormed_refuses_jal_other_rd : (Instr.jal .x2 8#13).wellFormed = false := by decide
theorem test_wellFormed_accepts_jal : (Instr.jal .x1 8#13).wellFormed = true := by decide
theorem test_wellFormed_refuses_lui_other_rd : (Instr.lui .x4 0x014#12).wellFormed = false := by decide
theorem test_wellFormed_accepts_lui : (Instr.lui .x5 0x014#12).wellFormed = true := by decide

/-! ### Decoding and encoding, one word for each constructor, fields written out from the top bit down -/

/-- The word decodes to the instruction, and is the instruction's own word. -/
abbrev reads (w : Word) (i : Instr) : Prop := decode w = .ok i ∧ encode i = w

/-- 0x0440: 41_r_type.md R102. -/
theorem test_decode_add : reads 0b0000010001000000#16 (.add .x1 .x2) := by decide
/-- 0x1440: 41_r_type.md R103. -/
theorem test_decode_sub : reads 0b0001010001000000#16 (.sub .x1 .x2) := by decide
/-- 0x2440: 41_r_type.md R104. -/
theorem test_decode_and : reads 0b0010010001000000#16 (.and .x1 .x2) := by decide
/-- 0x3440: 41_r_type.md R105. -/
theorem test_decode_or : reads 0b0011010001000000#16 (.or .x1 .x2) := by decide
/-- 0x4440: 41_r_type.md R106. -/
theorem test_decode_xor : reads 0b0100010001000000#16 (.xor .x1 .x2) := by decide
/-- 0x5440: 41_r_type.md R107. -/
theorem test_decode_sll : reads 0b0101010001000000#16 (.sll .x1 .x2) := by decide
/-- 0x6440: 41_r_type.md R108. -/
theorem test_decode_srl : reads 0b0110010001000000#16 (.srl .x1 .x2) := by decide
/-- 0x7440: 41_r_type.md R109. -/
theorem test_decode_sra : reads 0b0111010001000000#16 (.sra .x1 .x2) := by decide
/-- 0x8440: 41_r_type.md R110. -/
theorem test_decode_slt : reads 0b1000010001000000#16 (.slt .x1 .x2) := by decide
/-- 0x9440: 41_r_type.md R111. -/
theorem test_decode_sltu : reads 0b1001010001000000#16 (.sltu .x1 .x2) := by decide
/-- 0xFE41: 42_i_type.md R114. -/
theorem test_decode_addi : reads 0b1111111001000001#16 (.addi .x1 0x7F#7) := by decide
/-- 0xFE49: 42_i_type.md R115. -/
theorem test_decode_andi : reads 0b1111111001001001#16 (.andi .x1 0x7F#7) := by decide
/-- 0x8051: 42_i_type.md R116. -/
theorem test_decode_ori : reads 0b1000000001010001#16 (.ori .x1 0x40#7) := by decide
/-- 0xFE59: 42_i_type.md R117. -/
theorem test_decode_xori : reads 0b1111111001011001#16 (.xori .x1 0x7F#7) := by decide
/-- 0x0861: 42_i_type.md R118. -/
theorem test_decode_slli : reads 0b0000100001100001#16 (.slli .x1 4#7) := by decide
/-- 0x1E69: 42_i_type.md R119. -/
theorem test_decode_srli : reads 0b0001111001101001#16 (.srli .x1 15#7) := by decide
/-- 0x0871: 42_i_type.md R120. -/
theorem test_decode_srai : reads 0b0000100001110001#16 (.srai .x1 4#7) := by decide
/-- 0xFE79: 42_i_type.md R121. -/
theorem test_decode_slti : reads 0b1111111001111001#16 (.slti .x1 0x7F#7) := by decide
/-- 0xF002: 43_branch.md R123. -/
theorem test_decode_beq : reads 0b1111000000000010#16 (.beq .x0 .x0 15#4) := by decide
/-- 0xE04A: 43_branch.md R124. -/
theorem test_decode_bne : reads 0b1110000001001010#16 (.bne .x1 .x0 14#4) := by decide
/-- 0x4452: 43_branch.md R125. -/
theorem test_decode_blt : reads 0b0100010001010010#16 (.blt .x1 .x2 4#4) := by decide
/-- 0x445A: 43_branch.md R126. -/
theorem test_decode_bge : reads 0b0100010001011010#16 (.bge .x1 .x2 4#4) := by decide
/-- 0x4462: 43_branch.md R127. -/
theorem test_decode_bltu : reads 0b0100010001100010#16 (.bltu .x1 .x2 4#4) := by decide
/-- 0x446A: 43_branch.md R128. -/
theorem test_decode_bgeu : reads 0b0100010001101010#16 (.bgeu .x1 .x2 4#4) := by decide
/-- 0x0343: 44_load_store.md R132. -/
theorem test_decode_sb : reads 0b0000001101000011#16 (.sb .x1 .x5 0#4) := by decide
/-- 0x134B: 44_load_store.md R133. -/
theorem test_decode_sw : reads 0b0001001101001011#16 (.sw .x1 .x5 1#4) := by decide
/-- 0x0553: 44_load_store.md R134. -/
theorem test_decode_lb : reads 0b0000010101010011#16 (.lb .x2 .x5 0#4) := by decide
/-- 0x095B: 44_load_store.md R135. -/
theorem test_decode_lw : reads 0b0000100101011011#16 (.lw .x4 .x5 0#4) := by decide
/-- 0x0763: 44_load_store.md R136. -/
theorem test_decode_lbu : reads 0b0000011101100011#16 (.lbu .x3 .x5 0#4) := by decide
/-- 0x096B: 44_load_store.md R137. -/
theorem test_decode_lwu : reads 0b0000100101101011#16 (.lwu .x4 .x5 0#4) := by decide
/-- 0xFFC4: 45_jal.md R140, offset -16. -/
theorem test_decode_jal : reads 0b1111111111000100#16 (.jal .x7 0x1FF8#13) := by decide
/-- 0xFE0D: 46_jalr.md R144, offset -1. -/
theorem test_decode_jalr : reads 0b1111111000001101#16 (.jalr .x0 .x1 0x7F#7) := by decide
/-- 0x0146: 47_lui.md R146. -/
theorem test_decode_lui : reads 0b0000000101000110#16 (.lui .x5 0x014#12) := by decide
/-- 0x000F: 48_sys.md R148. -/
theorem test_decode_ecallPrintInt : reads 0b0000000000001111#16 (.ecallPrintInt) := by decide
/-- 0x001F: 48_sys.md R149. -/
theorem test_decode_ecallHalt : reads 0b0000000000011111#16 (.ecallHalt) := by decide
/-- 0x002F: 48_sys.md R150. -/
theorem test_decode_ecallPrintString : reads 0b0000000000101111#16 (.ecallPrintString) := by decide
/-- 0x0007: 48_sys.md R151. -/
theorem test_decode_ecallUnknown0 : reads 0b0000000000000111#16 (.ecallUnknown0) := by decide
/-- 0x0017: 48_sys.md R151. -/
theorem test_decode_ecallUnknown2 : reads 0b0000000000010111#16 (.ecallUnknown2) := by decide
/-- 0x0027: 48_sys.md R151. -/
theorem test_decode_ecallUnknown4 : reads 0b0000000000100111#16 (.ecallUnknown4) := by decide
/-- 0x0037: 48_sys.md R151. -/
theorem test_decode_ecallUnknown6 : reads 0b0000000000110111#16 (.ecallUnknown6) := by decide
/-- 0x003F: 48_sys.md R151. -/
theorem test_decode_ecallUnknown7 : reads 0b0000000000111111#16 (.ecallUnknown7) := by decide

/-- Ignored bits: bit 3 of `lui` (47_lui.md R146 (c)) and bits 15 to 6 of SYS (95_test_vectors.md D.23, S.3). -/
theorem test_decode_ignored_bits : decode 0x014E#16 = .ok (.lui .x5 0x014#12) ∧ decode 0xFFFF#16 = .ok .ecallUnknown7 ∧
    decode 0xFFCF#16 = .ok .ecallPrintInt := by decide

/-- Illegal words (95_test_vectors.md D.9, D.12, D.15, D.20). -/
theorem test_decode_illegal : decode 0x0008#16 = .error (.unknownFunct 0x0008#16) ∧
    decode 0xA000#16 = .error (.unknownFunct 0xA000#16) ∧ decode 0x0032#16 = .error (.unknownFunct 0x0032#16) ∧
    decode 0xFFFB#16 = .error (.unknownFunct 0xFFFB#16) := by decide

theorem test_decodeTableWord : decodeTableWord 16 0x134B = some (.sw .x1 .x5 1#4) ∧ decodeTableWord 16 0xA000 = none := by
  decide

/-! ### One step of each instruction -/

/-- The reset state at `pc`, with the registers and bytes given, about to fetch `w`. -/
def ready (pc : Word) (w : Nat) (xs : List (Reg × Word)) (bytes : List (Nat × Byte)) : State :=
  let s := xs.foldl (fun (s : State) (p : Reg × Word) => s.setReg p.1 p.2) { State.reset with pc := pc }
  { s with mem := bytes.foldl (fun (m : Memory) (c : Nat × Byte) => m.write c.1 c.2) s.mem }.withFetchWord 16 w

/-- What a reading of the next state gives, where there is one. -/
def after {α : Type} (s : State) (f : State → α) : Option α :=
  match step s with
  | .next t => some (f t)
  | .fault _ => none
  | .refused _ => none

/-- 41_r_type.md R102. -/
theorem test_step_add :
    after (ready 0x0000#16 0x0440 [(.x1, 0xFFFF#16), (.x2, 0x0001#16)] []) (fun t => (t.reg .x1, t.pc)) = some (0x0000#16, 0x0002#16) := by decide
/-- 95_test_vectors.md R.39: x0 is an ordinary register. -/
theorem test_step_add_x0 :
    after (ready 0x0000#16 0x0000 [(.x0, 0x1234#16)] []) (fun t => (t.reg .x0, t.pc)) = some (0x2468#16, 0x0002#16) := by decide
/-- 41_r_type.md R103. -/
theorem test_step_sub :
    after (ready 0x0000#16 0x1440 [(.x1, 0x0000#16), (.x2, 0x0001#16)] []) (fun t => (t.reg .x1, t.pc)) = some (0xFFFF#16, 0x0002#16) := by decide
/-- 41_r_type.md R104. -/
theorem test_step_and :
    after (ready 0x0000#16 0x2440 [(.x1, 0xF0F0#16), (.x2, 0xFF00#16)] []) (fun t => (t.reg .x1, t.pc)) = some (0xF000#16, 0x0002#16) := by decide
/-- 41_r_type.md R105. -/
theorem test_step_or :
    after (ready 0x0000#16 0x3440 [(.x1, 0xF0F0#16), (.x2, 0x0F00#16)] []) (fun t => (t.reg .x1, t.pc)) = some (0xFFF0#16, 0x0002#16) := by decide
/-- 41_r_type.md R106. -/
theorem test_step_xor :
    after (ready 0x0000#16 0x4440 [(.x1, 0xFFFF#16), (.x2, 0x0F0F#16)] []) (fun t => (t.reg .x1, t.pc)) = some (0xF0F0#16, 0x0002#16) := by decide
/-- 41_r_type.md R107: the amount is masked to 4 bits. -/
theorem test_step_sll_by_17 :
    after (ready 0x0000#16 0x5440 [(.x1, 0x0001#16), (.x2, 0x0011#16)] []) (fun t => (t.reg .x1, t.pc)) = some (0x0002#16, 0x0002#16) := by decide
/-- 95_test_vectors.md R.35: the amount is the old x1. -/
theorem test_step_sll_same_register :
    after (ready 0x0000#16 0x5240 [(.x1, 0x0003#16)] []) (fun t => (t.reg .x1, t.pc)) = some (0x0018#16, 0x0002#16) := by decide
/-- 41_r_type.md R108. -/
theorem test_step_srl :
    after (ready 0x0000#16 0x6440 [(.x1, 0x8000#16), (.x2, 0x000F#16)] []) (fun t => (t.reg .x1, t.pc)) = some (0x0001#16, 0x0002#16) := by decide
/-- 95_test_vectors.md R.19. -/
theorem test_step_srl_by_17 :
    after (ready 0x0000#16 0x6440 [(.x1, 0xFFFF#16), (.x2, 0x0011#16)] []) (fun t => (t.reg .x1, t.pc)) = some (0x7FFF#16, 0x0002#16) := by decide
/-- 41_r_type.md R109. -/
theorem test_step_sra :
    after (ready 0x0000#16 0x7440 [(.x1, 0x8000#16), (.x2, 0x000F#16)] []) (fun t => (t.reg .x1, t.pc)) = some (0xFFFF#16, 0x0002#16) := by decide
/-- 95_test_vectors.md R.38. -/
theorem test_step_sra_same_register :
    after (ready 0x0000#16 0x7240 [(.x1, 0x8004#16)] []) (fun t => (t.reg .x1, t.pc)) = some (0xF800#16, 0x0002#16) := by decide
/-- 41_r_type.md R110. -/
theorem test_step_slt :
    after (ready 0x0000#16 0x8440 [(.x1, 0xFFFF#16), (.x2, 0x0001#16)] []) (fun t => (t.reg .x1, t.pc)) = some (0x0001#16, 0x0002#16) := by decide
/-- 95_test_vectors.md R.26. -/
theorem test_step_slt_extremes :
    after (ready 0x0000#16 0x8440 [(.x1, 0x7FFF#16), (.x2, 0x8000#16)] []) (fun t => (t.reg .x1, t.pc)) = some (0x0000#16, 0x0002#16) := by decide
/-- 41_r_type.md R111. -/
theorem test_step_sltu :
    after (ready 0x0000#16 0x9440 [(.x1, 0xFFFF#16), (.x2, 0x0001#16)] []) (fun t => (t.reg .x1, t.pc)) = some (0x0000#16, 0x0002#16) := by decide
/-- 95_test_vectors.md R.29. -/
theorem test_step_sltu_extremes :
    after (ready 0x0000#16 0x9440 [(.x1, 0x7FFF#16), (.x2, 0x8000#16)] []) (fun t => (t.reg .x1, t.pc)) = some (0x0001#16, 0x0002#16) := by decide
/-- 42_i_type.md R114. -/
theorem test_step_addi_minus_one :
    after (ready 0x0000#16 0xFE41 [(.x1, 0x0000#16)] []) (fun t => (t.reg .x1, t.pc)) = some (0xFFFF#16, 0x0002#16) := by decide
/-- 95_test_vectors.md I.1. -/
theorem test_step_addi_wrap :
    after (ready 0x0000#16 0x7E41 [(.x1, 0x7FFF#16)] []) (fun t => (t.reg .x1, t.pc)) = some (0x803E#16, 0x0002#16) := by decide
/-- 42_i_type.md R115: the immediate is unsigned. -/
theorem test_step_andi :
    after (ready 0x0000#16 0xFE49 [(.x1, 0xFFFF#16)] []) (fun t => (t.reg .x1, t.pc)) = some (0x007F#16, 0x0002#16) := by decide
/-- 42_i_type.md R116: bit 6 is not extended. -/
theorem test_step_ori :
    after (ready 0x0000#16 0x8051 [(.x1, 0x0000#16)] []) (fun t => (t.reg .x1, t.pc)) = some (0x0040#16, 0x0002#16) := by decide
/-- 42_i_type.md R117. -/
theorem test_step_xori :
    after (ready 0x0000#16 0xFE59 [(.x1, 0xFFFF#16)] []) (fun t => (t.reg .x1, t.pc)) = some (0xFF80#16, 0x0002#16) := by decide
/-- 42_i_type.md R118. -/
theorem test_step_slli :
    after (ready 0x0000#16 0x0861 [(.x1, 0x0123#16)] []) (fun t => (t.reg .x1, t.pc)) = some (0x1230#16, 0x0002#16) := by decide
/-- 95_test_vectors.md I.15: imm7[6:4] ignored. -/
theorem test_step_slli_by_127 :
    after (ready 0x0000#16 0xFE61 [(.x1, 0x0001#16)] []) (fun t => (t.reg .x1, t.pc)) = some (0x8000#16, 0x0002#16) := by decide
/-- 42_i_type.md R119. -/
theorem test_step_srli :
    after (ready 0x0000#16 0x1E69 [(.x1, 0x8000#16)] []) (fun t => (t.reg .x1, t.pc)) = some (0x0001#16, 0x0002#16) := by decide
/-- 95_test_vectors.md I.17. -/
theorem test_step_srli_by_20 :
    after (ready 0x0000#16 0x2869 [(.x1, 0x8000#16)] []) (fun t => (t.reg .x1, t.pc)) = some (0x0800#16, 0x0002#16) := by decide
/-- 42_i_type.md R120. -/
theorem test_step_srai :
    after (ready 0x0000#16 0x0871 [(.x1, 0x8000#16)] []) (fun t => (t.reg .x1, t.pc)) = some (0xF800#16, 0x0002#16) := by decide
/-- 95_test_vectors.md I.21. -/
theorem test_step_srai_by_31 :
    after (ready 0x0000#16 0x3E71 [(.x1, 0x8000#16)] []) (fun t => (t.reg .x1, t.pc)) = some (0xFFFF#16, 0x0002#16) := by decide
/-- 42_i_type.md R121. -/
theorem test_step_slti :
    after (ready 0x0000#16 0xFE79 [(.x1, 0x8000#16)] []) (fun t => (t.reg .x1, t.pc)) = some (0x0001#16, 0x0002#16) := by decide
/-- 42_i_type.md R121. -/
theorem test_step_slti_equal :
    after (ready 0x0000#16 0xFE79 [(.x1, 0xFFFF#16)] []) (fun t => (t.reg .x1, t.pc)) = some (0x0000#16, 0x0002#16) := by decide
/-- 43_branch.md R123. -/
theorem test_step_beq :
    after (ready 0x0010#16 0xF002 [] []) (fun t => t.pc) = some 0x000E#16 := by decide
/-- 95_test_vectors.md B.18. -/
theorem test_step_beq_to_itself :
    after (ready 0x0100#16 0x0442 [] []) (fun t => t.pc) = some 0x0100#16 := by decide
/-- 43_branch.md R124. -/
theorem test_step_bne :
    after (ready 0x0008#16 0xE04A [(.x1, 0x0003#16)] []) (fun t => t.pc) = some 0x0004#16 := by decide
/-- 43_branch.md R125. -/
theorem test_step_blt :
    after (ready 0x0020#16 0x4452 [(.x1, 0xFFFF#16), (.x2, 0x0001#16)] []) (fun t => t.pc) = some 0x0028#16 := by decide
/-- 95_test_vectors.md B.7. -/
theorem test_step_blt_not_taken :
    after (ready 0x0100#16 0x3452 [(.x1, 0x7FFF#16), (.x2, 0x8000#16)] []) (fun t => t.pc) = some 0x0102#16 := by decide
/-- 43_branch.md R126. -/
theorem test_step_bge :
    after (ready 0x0020#16 0x445A [(.x1, 0xFFFF#16), (.x2, 0x0001#16)] []) (fun t => t.pc) = some 0x0022#16 := by decide
/-- 95_test_vectors.md B.9. -/
theorem test_step_bge_equal :
    after (ready 0x0100#16 0x345A [(.x1, 0x0003#16), (.x2, 0x0003#16)] []) (fun t => t.pc) = some 0x0106#16 := by decide
/-- 43_branch.md R127. -/
theorem test_step_bltu :
    after (ready 0x0020#16 0x4462 [(.x1, 0xFFFF#16), (.x2, 0x0001#16)] []) (fun t => t.pc) = some 0x0022#16 := by decide
/-- 95_test_vectors.md B.12. -/
theorem test_step_bltu_taken :
    after (ready 0x0100#16 0x3462 [(.x1, 0x7FFF#16), (.x2, 0x8000#16)] []) (fun t => t.pc) = some 0x0106#16 := by decide
/-- 43_branch.md R128. -/
theorem test_step_bgeu :
    after (ready 0x0020#16 0x446A [(.x1, 0xFFFF#16), (.x2, 0x0001#16)] []) (fun t => t.pc) = some 0x0028#16 := by decide
/-- 95_test_vectors.md B.16. -/
theorem test_step_bgeu_not_taken :
    after (ready 0x0100#16 0x346A [(.x2, 0xFFFF#16)] []) (fun t => t.pc) = some 0x0102#16 := by decide
/-- 44_load_store.md R132: only the low byte. -/
theorem test_step_sb :
    after (ready 0x0000#16 0x0343 [(.x5, 0x0140#16), (.x1, 0xFF80#16)] []) (fun t => (t.mem.read 0x0140, t.mem.read 0x0141, t.pc)) = some (0x80#8, 0x00#8, 0x0002#16) := by decide
/-- 44_load_store.md R138; 40_execution_cycle.md R94. -/
theorem test_step_sb_below_zero :
    after (ready 0x0000#16 0xF443 [(.x2, 0x00AB#16)] []) (fun t => (t.run, t.halt, t.pc, t.reg .x2)) = some (.halted, { reason := .faultOutOfBounds, faultPc := 0x0000#16, faultWord := 0xF443#16, faultAddr := -1, faultWidth := 1, haltTarget := 0 }, 0x0000#16, 0x00AB#16) := by decide
/-- 44_load_store.md R133. -/
theorem test_step_sw_odd_address :
    after (ready 0x0000#16 0x134B [(.x5, 0x0140#16), (.x1, 0xFF80#16)] []) (fun t => (t.mem.read 0x0140, t.mem.read 0x0141, t.mem.read 0x0142, t.pc)) = some (0x00#8, 0x80#8, 0xFF#8, 0x0002#16) := by decide
/-- 95_test_vectors.md LS.9: neither byte is written. -/
theorem test_step_sw_at_top :
    after (ready 0x0000#16 0x034B [(.x5, 0xFFFF#16), (.x1, 0x1234#16)] []) (fun t => (t.run, t.halt.faultAddr, t.halt.faultWidth, t.mem.read 0xFFFF)) = some (.halted, 65535, 2, 0x00#8) := by decide
/-- 44_load_store.md R134. -/
theorem test_step_lb :
    after (ready 0x0000#16 0x0553 [(.x5, 0x0140#16)] [(0x0140, 0x80#8)]) (fun t => (t.reg .x2, t.pc)) = some (0xFF80#16, 0x0002#16) := by decide
/-- 95_test_vectors.md LS.15. -/
theorem test_step_lb_last_byte :
    after (ready 0x0000#16 0x0553 [(.x5, 0xFFFF#16)] [(0xFFFF, 0x81#8)]) (fun t => (t.reg .x2, t.pc)) = some (0xFF81#16, 0x0002#16) := by decide
/-- 95_test_vectors.md LS.24. -/
theorem test_step_lw_into_its_base :
    after (ready 0x0000#16 0x0B5B [(.x5, 0x0300#16)] [(0x0300, 0x00#8), (0x0301, 0x04#8)]) (fun t => (t.reg .x5, t.pc)) = some (0x0400#16, 0x0002#16) := by decide
/-- 44_load_store.md R138; 95_test_vectors.md L1.10. -/
theorem test_step_lw_at_top :
    after (ready 0x0000#16 0x045B [(.x1, 0xFFFF#16)] []) (fun t => (t.run, t.halt, t.pc, t.reg .x2)) = some (.halted, { reason := .faultOutOfBounds, faultPc := 0x0000#16, faultWord := 0x045B#16, faultAddr := 65535, faultWidth := 2, haltTarget := 0 }, 0x0000#16, 0x0000#16) := by decide
/-- 44_load_store.md R136. -/
theorem test_step_lbu :
    after (ready 0x0000#16 0x0763 [(.x5, 0x0140#16)] [(0x0140, 0x80#8)]) (fun t => (t.reg .x3, t.pc)) = some (0x0080#16, 0x0002#16) := by decide
/-- 44_load_store.md R137. -/
theorem test_step_lwu :
    after (ready 0x0000#16 0x096B [(.x5, 0x0140#16)] [(0x0140, 0x80#8), (0x0141, 0x80#8)]) (fun t => (t.reg .x4, t.pc)) = some (0x8080#16, 0x0002#16) := by decide
/-- 95_test_vectors.md LS.23. -/
theorem test_step_lwu_below_zero :
    after (ready 0x0000#16 0x856B [] []) (fun t => (t.run, t.halt.faultAddr, t.halt.faultWidth)) = some (.halted, -8, 2) := by decide
/-- 45_jal.md R141. -/
theorem test_step_jal :
    after (ready 0x0040#16 0xFFC4 [] []) (fun t => (t.reg .x7, t.pc)) = some (0x0042#16, 0x0030#16) := by decide
/-- 95_test_vectors.md L3.9: the link stands. -/
theorem test_step_jal_below_zero :
    after (ready 0x0000#16 0xFFFC [] []) (fun t => (t.reg .x7, t.run, t.halt, t.pc)) = some (0x0002#16, .halted, { reason := .endOfMemory, faultPc := 0x0000#16, faultWord := 0xFFFC#16, faultAddr := 0, faultWidth := 0, haltTarget := -2 }, 0x0000#16) := by decide
/-- 46_jalr.md R144. -/
theorem test_step_jalr_same_register :
    after (ready 0x0020#16 0x004D [(.x1, 0x0100#16)] []) (fun t => (t.reg .x1, t.pc)) = some (0x0022#16, 0x0100#16) := by decide
/-- 46_jalr.md R144. -/
theorem test_step_jalr_odd :
    after (ready 0x0000#16 0xFE0D [(.x1, 0x0100#16)] []) (fun t => (t.reg .x0, t.pc)) = some (0x0002#16, 0x00FE#16) := by decide
/-- 47_lui.md R146. -/
theorem test_step_lui :
    after (ready 0x0000#16 0x1246 [(.x1, 0xAAAA#16)] []) (fun t => (t.reg .x1, t.pc)) = some (0x1240#16, 0x0002#16) := by decide
/-- 48_sys.md R148. -/
theorem test_step_ecall_print_int :
    after (ready 0x0000#16 0x000F [(.x6, 0xFFF9#16)] []) (fun t => (t.out, t.pc)) = some ([.printInt 0xFFF9#16], 0x0002#16) := by decide
/-- 95_test_vectors.md L1.9. -/
theorem test_step_ecall_halt :
    after (ready 0x0000#16 0x001F [(.x1, 0x1111#16)] []) (fun t => (t.run, t.halt, t.pc, t.ceiling)) = some (.halted, { reason := .haltEcall, faultPc := 0x0000#16, faultWord := 0x001F#16, faultAddr := 0, faultWidth := 0, haltTarget := 0 }, 0x0000#16, none) := by decide
/-- 48_sys.md R150. -/
theorem test_step_ecall_print_string :
    after (ready 0x0000#16 0x002F [(.x6, 0x0200#16)] [(0x0200, 0x68#8), (0x0201, 0x69#8)]) (fun t => (t.out, t.pc)) = some ([.printByte 0x68#8, .printByte 0x69#8], 0x0002#16) := by decide
/-- 95_test_vectors.md S.5. -/
theorem test_step_ecall_print_string_without_nul :
    after (ready 0x0000#16 0x002F [(.x6, 0xFFFF#16)] [(0xFFFF, 0x5A#8)]) (fun t => (t.out, t.halt)) = some ([.printByte 0x5A#8], { reason := .faultOutOfBounds, faultPc := 0x0000#16, faultWord := 0x002F#16, faultAddr := 65536, faultWidth := 1, haltTarget := 0 }) := by decide
/-- 48_sys.md R151. -/
theorem test_step_ecall_unknown_0 :
    after (ready 0x0000#16 0x0007 [] []) (fun t => (t.out, t.pc)) = some ([.diag 0#3], 0x0002#16) := by decide
/-- 48_sys.md R151. -/
theorem test_step_ecall_unknown_2 :
    after (ready 0x0000#16 0x0017 [] []) (fun t => (t.out, t.pc)) = some ([.diag 2#3], 0x0002#16) := by decide
/-- 48_sys.md R151. -/
theorem test_step_ecall_unknown_4 :
    after (ready 0x0000#16 0x0027 [] []) (fun t => (t.out, t.pc)) = some ([.diag 4#3], 0x0002#16) := by decide
/-- 48_sys.md R151. -/
theorem test_step_ecall_unknown_6 :
    after (ready 0x0000#16 0x0037 [] []) (fun t => (t.out, t.pc)) = some ([.diag 6#3], 0x0002#16) := by decide
/-- 48_sys.md R151. -/
theorem test_step_ecall_unknown_7 :
    after (ready 0x0000#16 0x003F [] []) (fun t => (t.out, t.pc)) = some ([.diag 7#3], 0x0002#16) := by decide
/-- 95_test_vectors.md L1.12. -/
theorem test_step_illegal_word :
    after (ready 0x0002#16 0xA000 [] []) (fun t => (t.run, t.halt, t.pc, t.ceiling)) = some (.halted, { reason := .decodeUnknownFunct, faultPc := 0x0002#16, faultWord := 0xA000#16, faultAddr := 0, faultWidth := 0, haltTarget := 0 }, 0x0002#16, none) := by decide
/-- 95_test_vectors.md B.21. -/
theorem test_step_not_taken_at_top :
    after (ready 0xFFFE#16 0x744A [] []) (fun t => (t.run, t.halt.reason, t.halt.haltTarget, t.pc)) = some (.halted, .endOfMemory, 65536, 0xFFFE#16) := by decide
/-- 95_test_vectors.md L3.10: the limit stops the step before its fetch. -/
theorem test_step_limit :
    after { ready 0x0000#16 0x0002 [] [] with ceiling := some ⟨5, 5⟩ } (fun t => (t.halt.reason, t.halt.faultWord, t.ceiling)) =
      some (.stepLimit, 0x0000#16, some ⟨5, 5⟩) := by decide
/-- 40_execution_cycle.md R92, 10_state.md R28: a completed step counts where a limit is set; without one there is no
counter. -/
theorem test_step_counts_under_a_limit :
    after { ready 0x0000#16 0x0002 [] [] with ceiling := some ⟨5, 4⟩ } (fun t => (t.run, t.ceiling)) = some (.running, some ⟨5, 5⟩) ∧
      after (ready 0x0000#16 0x0002 [] []) (fun t => t.ceiling) = some none := by decide
/-- 40_execution_cycle.md R87: no step from Halted. -/
theorem test_step_halted : after { State.reset with run := .halted } (fun t => t.pc) = none := by decide
/-- 95_test_vectors.md L1.11: a file of 3 bytes, and one that is too long for the two addresses below the top. -/
theorem test_load : loadImage [0x41#8, 0x00#8, 0x80#8] = [(0, 0x41#8), (2, 0x80#8)] ∧
    loadFrom 65534 [1#8, 2#8, 3#8] = [(65534, 1#8), (65535, 2#8)] := by decide
/-- 20_memory.md R41: writing back what an unlisted byte reads as leaves nothing listed. -/
theorem test_memory_canonical : Memory.write (Memory.write [] 7 1#8) 7 0#8 = [] := by decide
/-- 48_sys.md R152; 95_test_vectors.md L1.7, L1.8: how the host renders the events. -/
theorem test_stdout : stdout [.printInt 0xFFF9#16, .diag 7#3, .printByte 0x68#8] = [.text "-7", .raw 0x68#8] := by decide
/-- 60_exceptions.md R156: the two normal halts exit 0. -/
theorem test_exit_status : HaltReason.exitStatus .haltEcall = some 0 ∧ HaltReason.exitStatus .endOfMemory = some 0 := by
  decide

/-! ### Witnesses: for each obligation with hypotheses, concrete states and operands that meet them together, each clause
at the ends of its range -/

/-- The hypotheses of a claim about a step that can fetch, from three facts that evaluate. -/
theorem canFetch_of {s : State} (running : s.run = .running) (noLimit : s.ceiling = none)
    (inside : s.pc.toNat + 2 ≤ 65536) : CanFetch s :=
  ⟨running, fun limit h => absurd h (by rw [noLimit]; exact nofun), inside⟩

/-- A reading of the next state shows that there is one. -/
theorem next_of_after {α : Type} {s : State} {f : State → α} {x : α} (h : after s f = some x) :
    ∃ t, step s = .next t ∧ f t = x := by
  unfold after at h
  split at h
  · next t e => exact ⟨t, e, Option.some.inj h⟩
  · cases h
  · cases h

theorem witness_DecodeOfEncodeIsIdentity : (Instr.jal .x7 0x1FF8#13).wellFormed = true ∧
    (Instr.lui .x5 0x014#12).wellFormed = true ∧ Instr.ecallUnknown7.wellFormed = true := by decide

theorem witness_EncodeOfDecodeClearsIgnoredBits : decode 0xFFFF#16 = .ok .ecallUnknown7 ∧
    withoutIgnoredBits 0xFFFF#16 = 0x003F#16 := by decide

theorem witness_IgnoredBitsDoNotChangeDecoding :
    (0x014E#16).toNat % 8 = (0x0146#16).toNat % 8 ∧ withoutIgnoredBits 0x014E#16 = withoutIgnoredBits 0x0146#16 ∧
    (0x0146#16).toNat % 8 = 6 ∧ (0xFFFF#16).toNat % 8 = (0x003F#16).toNat % 8 ∧
    withoutIgnoredBits 0xFFFF#16 = withoutIgnoredBits 0x003F#16 ∧ (0x003F#16).toNat % 8 = 7 := by decide

/-- The six conditions, each met and each not met, by 0x7FFF, 0x8000 and two equal registers. -/
theorem witness_branch_conditions :
    (0x8000#16 = 0x8000#16 ∧ ¬0x8000#16 = 0x7FFF#16) ∧
    ((0x8000#16).toInt < (0x7FFF#16).toInt ∧ ¬(0x7FFF#16).toInt < (0x8000#16).toInt) ∧
    ((0x7FFF#16).toNat < (0x8000#16).toNat ∧ ¬(0x8000#16).toNat < (0x7FFF#16).toNat) ∧
    ((0x8000#16).toInt ≥ (0x8000#16).toInt ∧ (0x8000#16).toNat ≥ (0x8000#16).toNat) := by decide

/-- Targets at the ends of memory and just beyond them: `pc + 2` from 0xFFFC and 0xFFFE, a backward branch from 16 and
from 14. -/
theorem witness_targets :
    ((0xFFFC#16).toNat + 2 : Int) = 65534 ∧ ((0xFFFE#16).toNat + 2 : Int) = 65536 ∧
    ((0x0010#16).toNat + 2 * (8#4).toInt : Int) = 0 ∧ ((0x000E#16).toNat + 2 * (8#4).toInt : Int) = -2 := by decide

/-- Accesses admitted at both ends of memory, and those just beyond them that are not. -/
theorem witness_accesses :
    Admitted (loadStoreAddress (ready 0x0000#16 0 [(.x1, 0xFFF8#16)] []) .x1 7#4) 1 ∧
    ¬Admitted (loadStoreAddress (ready 0x0000#16 0 [(.x1, 0xFFF8#16)] []) .x1 7#4) 2 ∧
    Admitted (loadStoreAddress (ready 0x0000#16 0 [(.x1, 0xFFF8#16)] []) .x1 6#4) 2 ∧
    Admitted (loadStoreAddress (ready 0x0000#16 0 [(.x1, 0x0008#16)] []) .x1 8#4) 2 ∧
    ¬Admitted (loadStoreAddress (ready 0x0000#16 0 [(.x1, 0x0007#16)] []) .x1 8#4) 1 := by
  unfold Admitted; decide

/-- `jal` and `jalr` targets at the ends of memory and beyond them; `jalr`'s odd sum -1 rounds down to -2. -/
theorem witness_jump_targets :
    ((0x0010#16).toNat + 2 * (0x1FF8#13).toInt : Int) = 0 ∧ ((0x0000#16).toNat + 2 * (0x1FFF#13).toInt : Int) = -2 ∧
    jalrGoal (ready 0x0000#16 0 [(.x1, 0xFFFF#16)] []) .x1 0#7 = 65534 ∧
    jalrGoal (ready 0x0000#16 0 [(.x1, 0xFFFF#16)] []) .x1 1#7 = 65536 ∧
    jalrGoal (ready 0x0000#16 0 [(.x1, 0x0001#16)] []) .x1 0#7 = 0 ∧
    jalrGoal (ready 0x0000#16 0 [(.x1, 0x0000#16)] []) .x1 0x7F#7 = -2 := by decide

/-- Both clauses of the string claim: a string of one byte whose zero byte is the last of memory, an empty string, and
a last byte that is not zero. -/
theorem witness_PrintStringStopsAtNul :
    (let s := ready 0x0000#16 0x002F [(.x6, 0xFFFE#16)] [(0xFFFE, 0x41#8)]
     (s.reg .x6).toNat + 1 < 65536 ∧ (∀ k, k < 1 → s.mem.read ((s.reg .x6).toNat + k) ≠ 0) ∧
       s.mem.read ((s.reg .x6).toNat + 1) = 0) ∧
    (let s := ready 0x0000#16 0x002F [(.x6, 0xFFFF#16)] []
     (s.reg .x6).toNat + 0 < 65536 ∧ s.mem.read ((s.reg .x6).toNat + 0) = 0) := by decide

theorem witness_PrintStringStopsAtNul_at_top :
    let s := ready 0x0000#16 0x002F [(.x6, 0xFFFF#16)] [(0xFFFF, 0x41#8)]
    ∀ k, (s.reg .x6).toNat + k < 65536 → s.mem.read ((s.reg .x6).toNat + k) ≠ 0 := by
  intro s k hk
  have x6 : (s.reg .x6).toNat = 65535 := by decide
  have k0 : k = 0 := by omega
  subst k0
  decide

/-- A target inside memory and one outside it, of the same instruction; and a load that is admitted. -/
theorem witness_EveryTargetIsTakenOrEndsTheRun :
    continueTarget (ready 0xFFFC#16 0 [] []) (.add .x0 .x0) = some 65534 ∧
    continueTarget (ready 0xFFFE#16 0 [] []) (.add .x0 .x0) = some 65536 ∧
    continueTarget (ready 0x000E#16 0 [] []) (.beq .x0 .x0 8#4) = some (-2) ∧
    continueTarget (ready 0x0000#16 0 [(.x1, 0xFFFE#16)] []) (.lw .x2 .x1 0#4) = some 2 := by decide

/-- The last address a fetch can read from. -/
theorem witness_StepRunsTheDecodedInstruction :
    let s := ready 0xFFFE#16 0x0440 [] []
    CanFetch s ∧ decode (wordAt s.mem s.pc.toNat) = .ok (.add .x1 .x2) :=
  ⟨canFetch_of (by decide) (by decide) (by decide), by decide⟩

theorem witness_StepEnabledExactlyWhileRunning :
    State.reset.run = .running ∧ { State.reset with run := .halted }.run ≠ .running := by decide

/-- The limit just reached, and a limit of 0. -/
theorem witness_StepLimitStopsBeforeFetch :
    let s : State := { State.reset with ceiling := some ⟨5, 5⟩ }
    let z : State := { State.reset with ceiling := some ⟨0, 0⟩ }
    (s.run = .running ∧ s.ceiling = some ⟨5, 5⟩ ∧ StepCeiling.limit ⟨5, 5⟩ ≤ StepCeiling.steps ⟨5, 5⟩) ∧
      (z.run = .running ∧ z.ceiling = some ⟨0, 0⟩ ∧ StepCeiling.limit ⟨0, 0⟩ ≤ StepCeiling.steps ⟨0, 0⟩) := by
  decide

theorem witness_IllegalWordHaltsWithPcAndWord :
    let s := ready 0xFFFE#16 0xFFFB [] []
    CanFetch s ∧ decode (wordAt s.mem s.pc.toNat) = .error (.unknownFunct (wordAt s.mem s.pc.toNat)) :=
  ⟨canFetch_of (by decide) (by decide) (by decide), by decide⟩

theorem witness_FetchAtLastByteHalts :
    let s : State := { State.reset with pc := 0xFFFF#16 }
    s.run = .running ∧ BelowLimit s ∧ s.pc = 0xFFFF#16 :=
  ⟨rfl, fun _ h => (by cases h), rfl⟩

/-- A step that halts for each of the five causes, with the reason it records. -/
theorem witness_HaltReasonNamesItsCause :
    (∃ t, step { State.reset with ceiling := some ⟨0, 0⟩ } = .next t ∧ (t.run, t.halt.reason) = (.halted, .stepLimit)) ∧
    (∃ t, step (ready 0xFFFE#16 0xA000 [] []) = .next t ∧ (t.run, t.halt.reason) = (.halted, .decodeUnknownFunct)) ∧
    (∃ t, step (ready 0xFFFE#16 0x001F [] []) = .next t ∧ (t.run, t.halt.reason) = (.halted, .haltEcall)) ∧
    (∃ t, step (ready 0x0000#16 0x045B [(.x1, 0xFFFF#16)] []) = .next t ∧
      (t.run, t.halt.reason) = (.halted, .faultOutOfBounds)) ∧
    (∃ t, step (ready 0xFFFE#16 0x0440 [] []) = .next t ∧ (t.run, t.halt.reason) = (.halted, .endOfMemory)) ∧
    (∃ t, step (ready 0xFFFE#16 0x002F [] []) = .next t ∧ (t.run, t.halt.reason) = (.halted, .endOfMemory)) :=
  ⟨next_of_after (by decide), next_of_after (by decide), next_of_after (by decide), next_of_after (by decide),
    next_of_after (by decide), next_of_after (by decide)⟩

/-- A step that ends in each of the two faults, one of them after emitting. -/
theorem witness_FaultsArePrecise :
    (let s := ready 0x0000#16 0x002F [(.x6, 0xFFFF#16)] [(0xFFFF, 0x5A#8)]
     CanFetch s ∧ ∃ t, step s = .next t ∧ (t.run, t.halt.reason, t.out) = (.halted, .faultOutOfBounds, [.printByte 0x5A#8])) ∧
    (let s := ready 0x0000#16 0x856B [] []
     CanFetch s ∧ ∃ t, step s = .next t ∧ (t.run, t.halt.reason) = (.halted, .faultOutOfBounds)) ∧
    (let s := ready 0xFFFE#16 0xA000 [] []
     CanFetch s ∧ ∃ t, step s = .next t ∧ (t.run, t.halt.reason) = (.halted, .decodeUnknownFunct)) :=
  ⟨⟨canFetch_of (by decide) (by decide) (by decide), next_of_after (by decide)⟩,
    ⟨canFetch_of (by decide) (by decide) (by decide), next_of_after (by decide)⟩,
    ⟨canFetch_of (by decide) (by decide) (by decide), next_of_after (by decide)⟩⟩

/-- A consistent state that stores, one that goes on to the last even address, and one that halts. -/
theorem witness_StepKeepsConsistency :
    (let s := ready 0x0000#16 0x0343 [(.x5, 0x0140#16), (.x1, 0xFF80#16)] []
     Consistent s ∧ ∃ t, step s = .next t ∧ t.mem.read 0x0140 = 0x80#8) ∧
    (let s := ready 0xFFFC#16 0x0440 [] []
     Consistent s ∧ ∃ t, step s = .next t ∧ t.pc = 0xFFFE#16) ∧
    (let s := ready 0xFFFE#16 0x0440 [] []
     Consistent s ∧ ∃ t, step s = .next t ∧ t.run = .halted) :=
  ⟨⟨⟨by decide, by decide, fun _ => rfl, fun h => absurd h (by decide)⟩, next_of_after (by decide)⟩,
    ⟨⟨by decide, by decide, fun _ => rfl, fun h => absurd h (by decide)⟩, next_of_after (by decide)⟩,
    ⟨⟨by decide, by decide, fun _ => rfl, fun h => absurd h (by decide)⟩, next_of_after (by decide)⟩⟩

/-- The first and the last byte of a file of two, and an address beyond it. -/
theorem witness_BootLoadsTheImage :
    (State.boot none [0x07#8, 0xFF#8]).mem.read 0 = 0x07#8 ∧ (State.boot none [0x07#8, 0xFF#8]).mem.read 1 = 0xFF#8 ∧
    (State.boot none [0x07#8, 0xFF#8]).mem.read 65535 = 0x00#8 := by decide

/-- A step that emits, and one that does not. -/
theorem witness_OnlySystemCallsEmit :
    (let s := ready 0x0000#16 0x000F [(.x6, 0x0007#16)] []
     CanFetch s ∧ ∃ t, step s = .next t ∧ t.out = [.printInt 0x0007#16]) ∧
    (let s := ready 0x0000#16 0x0440 [] []
     CanFetch s ∧ ∃ t, step s = .next t ∧ t.out = []) :=
  ⟨⟨canFetch_of (by decide) (by decide) (by decide), next_of_after (by decide)⟩,
    ⟨canFetch_of (by decide) (by decide) (by decide), next_of_after (by decide)⟩⟩

/-- An instruction with a destination, one with none, and a store. -/
theorem witness_WritesOnlyItsDestination :
    (∃ t, exec (.addi .x1 1#7) State.reset = .next t ∧ t.reg .x1 = 0x0001#16) ∧
    (∃ t, exec (.beq .x0 .x0 4#4) State.reset = .next t ∧ t.pc = 0x0008#16) ∧
    (∃ t, exec (.sb .x0 .x1 0#4) State.reset = .next t ∧ t.pc = 0x0002#16) :=
  ⟨⟨_, rfl, by decide⟩, ⟨_, rfl, by decide⟩, ⟨_, rfl, by decide⟩⟩

/-- A register the instruction neither reads nor writes, and one it only writes. -/
theorem witness_ReadsOnlyItsSources :
    Reg.x3 ∉ sources (.add .x1 .x2) ∧ destination (.add .x1 .x2) ≠ some .x3 ∧
    Reg.x4 ∉ sources (.lw .x4 .x5 0#4) ∧ destination (.lw .x4 .x5 0#4) = some .x4 ∧
    Reg.x0 ∉ sources .ecallPrintInt := by decide

/-- Two states that differ in output, steps and limit, and step by printing. -/
theorem witness_OutputAndBookkeepingAreNeverRead :
    let s := ready 0x0000#16 0x000F [(.x6, 0x0007#16)] []
    let s' : State := { s with out := [.diag 0#3], ceiling := some ⟨5, 4⟩ }
    s.run = .running ∧ SameProgramState s s' ∧ BelowLimit s ∧ BelowLimit s' ∧
      ∃ t, step s = .next t ∧ t.out = [.printInt 0x0007#16] :=
  ⟨rfl, ⟨rfl, rfl, rfl, rfl⟩, fun _ h => (by cases h), fun l h => by
    have : (⟨5, 4⟩ : StepCeiling) = l := Option.some.inj h
    subst this
    decide, next_of_after (by decide)⟩

/-- A limit still to be reached, and one already passed. -/
theorem witness_StepLimitEndsEveryRun :
    let s : State := { State.reset with ceiling := some ⟨2, 0⟩ }
    let z : State := { State.reset with ceiling := some ⟨2, 3⟩ }
    (s.run = .running ∧ s.ceiling = some ⟨2, 0⟩) ∧ (z.run = .running ∧ z.ceiling = some ⟨2, 3⟩) := by decide

/-- The read that gives the new value and the one that gives another register's. -/
theorem witness_RegisterZeroIsOrdinary :
    ((State.reset.setReg .x0 0x1234#16).reg .x0 = 0x1234#16) ∧ ((State.reset.setReg .x7 0x1234#16).reg .x0 = 0x0000#16) := by
  decide

/-- Both clauses at the last address they hold at, and past it no access. -/
theorem witness_MemoryIsLittleEndian :
    65534 + 2 ≤ 65536 ∧ 65535 + 1 ≤ 65536 ∧
    Memory.read2 [(65534, 0x34#8), (65535, 0x12#8)] 65534 = some 0x1234#16 ∧
    Memory.read1 [(65535, 0x12#8)] 65535 = some 0x12#8 ∧
    Memory.read2 [(65535, 0x12#8)] 65535 = none ∧ Memory.read1 [] 65536 = none := by decide

theorem witness_CanonicalMemoriesAreEqual :
    Memory.wf [(3, 0x01#8), (65534, 0x02#8)] = true ∧
    Memory.write2 [(3, 0x01#8)] 65534 0x0002#16 = some [(3, 0x01#8), (65534, 0x02#8)] ∧
    Memory.write1 [(3, 0x01#8)] 3 0x00#8 = some [] := by decide

/-- A store over the instruction after it, at the bottom and at the top of what the claim covers. -/
theorem witness_StoreIsSeenByTheNextFetch :
    (let s := ready 0x0000#16 0 [(.x5, 0x0002#16), (.x1, 0x001F#16)] []
     s.run = .running ∧ s.stepLimit = none ∧ s.pc.toNat + 4 ≤ 65536 ∧ loadStoreAddress s .x5 0#4 = s.pc.toNat + 2 ∧
       decode (s.reg .x1) = .ok .ecallHalt) ∧
    (let s := ready 0xFFFC#16 0 [(.x5, 0xFFFF#16), (.x1, 0x001F#16)] []
     s.run = .running ∧ s.stepLimit = none ∧ s.pc.toNat + 4 ≤ 65536 ∧ loadStoreAddress s .x5 15#4 = s.pc.toNat + 2 ∧
       decode (s.reg .x1) = .ok .ecallHalt) := by decide

end Sys2Proof.Tests
end

section
/-! PROOFS. Registers: a read after a write, whichever two registers they name (R18). -/

namespace Sys2Proof.Machine

/-- The read-after-write rule of both cases, for a proof that does not know whether the registers agree. -/
theorem State.reg_setReg (s : State) (r q : Reg) (v : Word) :
    (s.setReg r v).reg q = if q = r then v else s.reg q := by
  split
  case isTrue same =>
    subst same
    exact State.reg_setReg_same s q v
  case isFalse other => exact State.reg_setReg_other s v other

/-- Settles O46: the rule for a register read after a write makes no exception for x0. -/
theorem registerZeroIsOrdinary : Obligations.RegisterZeroIsOrdinary :=
  fun s r q v => ⟨State.reg_setReg_same s .x0 v, State.reg_setReg s r q v⟩

end Sys2Proof.Machine
end

section
/-! PROOFS. Memory: the checked accesses at a natural-number address inside memory, little-endian (R43). -/

namespace Sys2Proof.Machine

theorem Memory.read1_natCast (m : Memory) {a : Nat} (h : a + 1 ≤ 65536) : m.read1 a = some (m.read a) :=
  Memory.read1_eq_some.mpr ⟨by omega, by rw [Int.toNat_natCast]⟩

theorem Memory.read2_natCast (m : Memory) {a : Nat} (h : a + 2 ≤ 65536) :
    m.read2 a = some (m.read (a + 1) ++ m.read a) :=
  Memory.read2_eq_some.mpr ⟨by omega, by rw [Int.toNat_natCast]⟩

/-- A 1-byte write inside memory is admitted, and sets that byte alone. -/
theorem Memory.exists_write1_natCast (m : Memory) {a : Nat} (b : Byte) (h : a + 1 ≤ 65536) :
    ∃ m', m.write1 a b = some m' ∧ m'.read a = b ∧ ∀ k, k ≠ a → m'.read k = m.read k := by
  have admitted : m.write1 a b ≠ none := fun refused => Memory.write1_eq_none.mp refused (by omega)
  obtain ⟨m', written⟩ := Option.ne_none_iff_exists'.mp admitted
  obtain ⟨-, byte, others, -⟩ := Memory.write1_spec written
  rw [Int.toNat_natCast] at byte others
  exact ⟨m', written, byte, others⟩

/-- A 2-byte write inside memory is admitted, and sets its two bytes alone, the low one at the lower address. -/
theorem Memory.exists_write2_natCast (m : Memory) {a : Nat} (v : Word) (h : a + 2 ≤ 65536) :
    ∃ m', m.write2 a v = some m' ∧ m'.read a = lowByte v ∧ m'.read (a + 1) = highByte v ∧
      ∀ k, k ≠ a → k ≠ a + 1 → m'.read k = m.read k := by
  have admitted : m.write2 a v ≠ none := fun refused => Memory.write2_eq_none.mp refused (by omega)
  obtain ⟨m', written⟩ := Option.ne_none_iff_exists'.mp admitted
  obtain ⟨-, low, high, others, -⟩ := Memory.write2_spec written
  rw [Int.toNat_natCast] at low high others
  exact ⟨m', written, low, high, others⟩

/-- Settles O47: each of the four accesses is its own rule at an address the bounds check admits. -/
theorem memoryIsLittleEndian : Obligations.MemoryIsLittleEndian :=
  fun m _ v b =>
    ⟨fun twoInside => ⟨Memory.read2_natCast m twoInside, Memory.exists_write2_natCast m v twoInside⟩,
     fun oneInside => ⟨Memory.read1_natCast m oneInside, Memory.exists_write1_natCast m b oneInside⟩⟩

end Sys2Proof.Machine
end

section
/-! PROOFS. A step from a state that can fetch: its limit lets it go on, its fetch answers the word at pc, and an illegal
word ends it (R88 to R90). -/

namespace Sys2Proof.Machine

open Sys2Proof.Safety

theorem limitReached_eq_false_iff {s : State} : s.limitReached = false ↔ BelowLimit s := by
  rw [← Bool.not_eq_true, limitReached_iff]
  simp only [BelowLimit, not_exists, not_and, Nat.not_le]

theorem fetch_of_inside {s : State} (inside : s.pc.toNat + 2 ≤ 65536) :
    s.fetch = some (wordAt s.mem s.pc.toNat) :=
  fetch_eq_some.mpr ⟨inside, rfl⟩

/-- A running core below its limit halts on what it fetched and could not decode: `cycle_of_decode`'s counterpart. -/
theorem cycle_of_decode_error {dec : Word → DecodeResult} {s : State} {w : Word} {e : DecodeError}
    (hrun : s.run = .running) (hl : s.limitReached = false) (hf : s.fetch = some w) (hd : dec w = .error e) :
    cycle dec s = .next (haltAtDecode e s) := by
  simp [cycle, fetchAndRun, hrun, hl, hf, hd]

theorem step_of_decode_error {s : State} {e : DecodeError} (ready : CanFetch s)
    (undecoded : decode (wordAt s.mem s.pc.toNat) = .error e) : step s = .next (haltAtDecode e s) :=
  cycle_of_decode_error ready.running (limitReached_eq_false_iff.mpr ready.belowLimit)
    (fetch_of_inside ready.pcInside) undecoded

theorem haltAtDecode_unknownFunct (w : Word) (s : State) :
    haltAtDecode (.unknownFunct w) s =
      s.haltWith { HaltRecord.clear with reason := .decodeUnknownFunct, faultPc := s.pc, faultWord := w } := rfl

/-- Settles O32: the step is the halt at decode, and a halt writes only the run state and the record. -/
theorem illegalWordHaltsWithPcAndWord : Obligations.IllegalWordHaltsWithPcAndWord := by
  intro s ready illegal
  refine ⟨_, step_of_decode_error ready illegal, ?_⟩
  rw [haltAtDecode_unknownFunct]
  exact ⟨State.haltWith_run s _, rfl, rfl, rfl, State.haltWith_reg s _, fun _ => rfl, State.haltWith_pc s _,
    State.haltWith_out s _, State.haltWith_stepLimit s _⟩

end Sys2Proof.Machine
end

section
/-! PROOFS. The arithmetic as plain integers: what each operation leaves, for any operands and any shift amount
(R101 to R111), for the R and the I forms alike. -/

namespace Sys2Proof.Machine

theorem trunc16_toNat (n : Int) : ((trunc16 n).toNat : Int) = n % 65536 := by
  rw [trunc16, BitVec.toNat_ofInt]; omega

theorem trunc16_natCast_toNat (n : Nat) : (trunc16 n).toNat = n % 65536 := by
  have := trunc16_toNat n; omega

theorem aluAdd_toNat (a b : Word) : (aluAdd a b).toNat = (a.toNat + b.toNat) % 65536 :=
  trunc16_natCast_toNat (a.toNat + b.toNat)

theorem aluSub_toNat (a b : Word) : ((aluSub a b).toNat : Int) = ((a.toNat : Int) - b.toNat) % 65536 :=
  trunc16_toNat _

theorem aluSll_toNat (a : Word) (sh : Nat) : (aluSll a sh).toNat = a.toNat * 2 ^ sh % 65536 :=
  trunc16_natCast_toNat _

theorem aluSrl_toNat (a : Word) (sh : Nat) : (aluSrl a sh).toNat = a.toNat / 2 ^ sh := by
  have fits : a.toNat / 2 ^ sh < 2 ^ 16 := Nat.lt_of_le_of_lt (Nat.div_le_self _ _) a.isLt
  rw [aluSrl, BitVec.toNat_ofNat, Nat.mod_eq_of_lt fits]

/-- The rounded quotient always fits a signed word: it is the one the arithmetic shift leaves. -/
theorem aluSra_eq_sshiftRight (a : Word) (sh : Nat) : aluSra a sh = a.sshiftRight sh := by
  rw [aluSra, ← Int.shiftRight_eq_div_pow, ← BitVec.toInt_sshiftRight]
  exact BitVec.ofInt_toInt

theorem aluSra_toInt (a : Word) (sh : Nat) : (aluSra a sh).toInt = a.toInt.fdiv (2 ^ sh) := by
  have nonneg : (0 : Int) ≤ 2 ^ sh := Int.pow_nonneg (by decide)
  rw [aluSra_eq_sshiftRight, BitVec.toInt_sshiftRight, Int.shiftRight_eq_div_pow, Int.natCast_pow,
    Nat.cast_ofNat, Int.fdiv_eq_ediv_of_nonneg _ nonneg]

theorem truthWord_signedLess (a b : Word) :
    truthWord (signedLess a b) = if a.toInt < b.toInt then 0x0001#16 else 0x0000#16 := by
  simp only [truthWord, signedLess, decide_eq_true_eq]

theorem truthWord_unsignedLess (a b : Word) :
    truthWord (unsignedLess a b) = if a.toNat < b.toNat then 0x0001#16 else 0x0000#16 := by
  simp only [truthWord, unsignedLess, decide_eq_true_eq]

end Sys2Proof.Machine
end

section
/-! PROOFS. What a step that goes on to a target leaves alone, in the claims' own terms (40_execution_cycle.md R92). -/

namespace Sys2Proof.Machine

open Sys2Proof.Safety

theorem commitContinue_goesTo {s after : State} (target : Int) (effect : Effect s after) :
    GoesTo target s (commitContinue s after target) :=
  fun low high =>
    ⟨commitContinue_pc_inside s after ⟨low, high⟩,
     (commitContinue_run_inside s after ⟨low, high⟩).trans effect.run,
     (commitContinue_halt_inside s after ⟨low, high⟩).trans effect.halt⟩

theorem commitContinue_memoryKept {s after : State} (target : Int) (mem : after.mem = s.mem) :
    MemoryKept s (commitContinue s after target) :=
  fun a => by rw [commitContinue_mem, mem]

theorem commitContinue_noEvent {s after : State} (target : Int) (out : after.out = s.out) :
    NoEvent s (commitContinue s after target) :=
  ⟨(commitContinue_out s after target).trans out, commitContinue_stepLimit s after target⟩

/-- What an instruction that writes one register and goes on leaves: the value it wrote, and all else as it was. -/
theorem commitContinue_setReg_frame {s t : State} {rd : Reg} {v : Word} {target : Int}
    (committed : t = commitContinue s (s.setReg rd v) target) :
    t.reg rd = v ∧ OnlyRegister rd s t ∧ MemoryKept s t ∧ NoEvent s t ∧ GoesTo target s t := by
  subst committed
  refine ⟨?_, fun r other => ?_, commitContinue_memoryKept target rfl, commitContinue_noEvent target rfl,
    commitContinue_goesTo target (.setReg s rd v)⟩
  · rw [commitContinue_reg, State.reg_setReg_same]
  · rw [commitContinue_reg, State.reg_setReg_other s v other]

end Sys2Proof.Machine
end

section
/-! PROOFS. The R-type instructions (41_r_type.md): the form they share, then each by the operation it applies. -/

namespace Sys2Proof.Machine

open Sys2Proof.Safety

/-- The word of an R form is its selector's word with the two register fields put in. -/
theorem encodeR_eq_fields {funct4 : BitVec 4} {base : Word} (selects : funct4.setWidth 16 <<< 12 = base)
    (rd rs2 : Reg) : encodeR funct4 rd rs2 = base ||| field rs2.bits 9 ||| field rd.bits 6 := by
  rw [encodeR_fields, selects]; rfl

/-- An instruction with an R word that runs as `registerOp op` makes the R-type claim for any relation `op` meets. -/
theorem rForm_of_registerOp {mk : Reg → Reg → Instr} {base : Word} {val : Word → Word → Word → Prop}
    (funct4 : BitVec 4) (op : Word → Word → Word) (selects : funct4.setWidth 16 <<< 12 = base)
    (encodes : ∀ rd rs2, encode (mk rd rs2) = encodeR funct4 rd rs2)
    (executes : ∀ rd rs2 s, exec (mk rd rs2) s = .next (registerOp op rd rs2 s))
    (computes : ∀ a b, val a b (op a b)) : RForm mk base val := by
  intro rd rs2 s
  obtain ⟨written, frame⟩ := commitContinue_setReg_frame (registerOp_eq op rd rs2 s)
  exact ⟨(encodes rd rs2).trans (encodeR_eq_fields selects rd rs2), _, executes rd rs2 s,
    written ▸ computes _ _, frame⟩

theorem add_rForm : RForm .add 0x0000#16 (fun a b r => r.toNat = (a.toNat + b.toNat) % 65536) :=
  rForm_of_registerOp 0#4 aluAdd rfl (fun _ _ => rfl) (fun _ _ _ => rfl) aluAdd_toNat

theorem sub_rForm : RForm .sub 0x1000#16 (fun a b r => (r.toNat : Int) = ((a.toNat : Int) - b.toNat) % 65536) :=
  rForm_of_registerOp 1#4 aluSub rfl (fun _ _ => rfl) (fun _ _ _ => rfl) aluSub_toNat

/-- Settles O6: the exact sum and difference, narrowed once, are the ones modulo 65536. -/
theorem addAndSubWrap : Obligations.AddAndSubWrap := ⟨add_rForm, sub_rForm⟩

theorem and_rForm :
    RForm .and 0x2000#16 (fun a b r => ∀ k, k < 16 → r.getLsbD k = (a.getLsbD k && b.getLsbD k)) :=
  rForm_of_registerOp 2#4 aluAnd rfl (fun _ _ => rfl) (fun _ _ _ => rfl) fun _ _ _ _ => BitVec.getLsbD_and

theorem or_rForm :
    RForm .or 0x3000#16 (fun a b r => ∀ k, k < 16 → r.getLsbD k = (a.getLsbD k || b.getLsbD k)) :=
  rForm_of_registerOp 3#4 aluOr rfl (fun _ _ => rfl) (fun _ _ _ => rfl) fun _ _ _ _ => BitVec.getLsbD_or

theorem xor_rForm :
    RForm .xor 0x4000#16 (fun a b r => ∀ k, k < 16 → r.getLsbD k = (a.getLsbD k != b.getLsbD k)) :=
  rForm_of_registerOp 4#4 aluXor rfl (fun _ _ => rfl) (fun _ _ _ => rfl) fun _ _ _ _ => BitVec.getLsbD_xor

/-- Settles O7: the three operations are the bit vectors' own, which the library gives bit by bit. -/
theorem andOrXorBitwise : Obligations.AndOrXorBitwise := ⟨and_rForm, or_rForm, xor_rForm⟩

theorem sll_rForm : RForm .sll 0x5000#16 (fun a b r => r.toNat = a.toNat * 2 ^ (b.toNat % 16) % 65536) :=
  rForm_of_registerOp 5#4 (fun a b => aluSll a (regShift b)) rfl (fun _ _ => rfl) (fun _ _ _ => rfl)
    fun a b => regShift_eq b ▸ aluSll_toNat a (regShift b)

theorem srl_rForm : RForm .srl 0x6000#16 (fun a b r => r.toNat = a.toNat / 2 ^ (b.toNat % 16)) :=
  rForm_of_registerOp 6#4 (fun a b => aluSrl a (regShift b)) rfl (fun _ _ => rfl) (fun _ _ _ => rfl)
    fun a b => regShift_eq b ▸ aluSrl_toNat a (regShift b)

theorem sra_rForm : RForm .sra 0x7000#16 (fun a b r => r.toInt = a.toInt.fdiv (2 ^ (b.toNat % 16))) :=
  rForm_of_registerOp 7#4 (fun a b => aluSra a (regShift b)) rfl (fun _ _ => rfl) (fun _ _ _ => rfl)
    fun a b => regShift_eq b ▸ aluSra_toInt a (regShift b)

/-- Settles O8: each shift for any amount, taken at the low 4 bits of the register. -/
theorem registerShiftsAreMasked : Obligations.RegisterShiftsAreMasked := ⟨sll_rForm, srl_rForm, sra_rForm⟩

theorem slt_rForm : RForm .slt 0x8000#16 (fun a b r => r = if a.toInt < b.toInt then 0x0001#16 else 0x0000#16) :=
  rForm_of_registerOp 8#4 (fun a b => truthWord (signedLess a b)) rfl (fun _ _ => rfl) (fun _ _ _ => rfl)
    truthWord_signedLess

theorem sltu_rForm : RForm .sltu 0x9000#16 (fun a b r => r = if a.toNat < b.toNat then 0x0001#16 else 0x0000#16) :=
  rForm_of_registerOp 9#4 (fun a b => truthWord (unsignedLess a b)) rfl (fun _ _ => rfl) (fun _ _ _ => rfl)
    truthWord_unsignedLess

/-- Settles O9: both comparisons compare integers, and their outcome as a word is 1 or 0. -/
theorem setLessThanComparisons : Obligations.SetLessThanComparisons := ⟨slt_rForm, sltu_rForm⟩

end Sys2Proof.Machine
end

section
/-! PROOFS. Immediates: the sum with a signed one as an integer, and the bits of an unsigned one (30_encoding.md R72). -/

namespace Sys2Proof.Machine

theorem aluAddSigned_toNat (a b : Word) : ((aluAddSigned a b).toNat : Int) = ((a.toNat : Int) + b.toInt) % 65536 :=
  trunc16_toNat _

/-- The zero-extended immediate has the field's own bits below bit 7, and zeros from there up. -/
theorem immUnsigned_getLsbD (imm7 : BitVec 7) (k : Nat) :
    (immUnsigned imm7).getLsbD k = (decide (k < 7) && imm7.getLsbD k) := by
  rw [immUnsigned, BitVec.getLsbD_setWidth]
  by_cases inField : k < 7
  · have inWord : k < 16 := by omega
    simp only [inField, inWord]
  · have clear : imm7.getLsbD k = false := BitVec.getLsbD_of_ge imm7 k (by omega)
    simp only [clear, Bool.and_false]

end Sys2Proof.Machine
end

section
/-! PROOFS. The I-type instructions (42_i_type.md): the form they share, then each by the operation it applies. -/

namespace Sys2Proof.Machine

open Sys2Proof.Safety

/-- The word of an I form is its selector's word with the immediate and the register field put in. -/
theorem encodeI_eq_fields {funct3 : BitVec 3} {base : Word} (selects : funct3.setWidth 16 <<< 3 ||| 1#16 = base)
    (rd : Reg) (imm7 : BitVec 7) : encodeI funct3 rd imm7 = field imm7 9 ||| field rd.bits 6 ||| base := by
  rw [encodeI_fields, BitVec.or_assoc, selects]; rfl

/-- An instruction with an I word that runs as `immediateOp` of `op` makes the I-type claim for any relation `op`
meets. -/
theorem iForm_of_immediateOp {mk : Reg → BitVec 7 → Instr} {base : Word} {val : Word → BitVec 7 → Word → Prop}
    (funct3 : BitVec 3) (op : BitVec 7 → Word → Word) (selects : funct3.setWidth 16 <<< 3 ||| 1#16 = base)
    (encodes : ∀ rd imm7, encode (mk rd imm7) = encodeI funct3 rd imm7)
    (executes : ∀ rd imm7 s, exec (mk rd imm7) s = .next (immediateOp (op imm7) rd s))
    (computes : ∀ a imm7, val a imm7 (op imm7 a)) : IForm mk base val := by
  intro rd imm7 s
  obtain ⟨written, frame⟩ := commitContinue_setReg_frame (immediateOp_eq (op imm7) rd s)
  exact ⟨(encodes rd imm7).trans (encodeI_eq_fields selects rd imm7), _, executes rd imm7 s,
    written ▸ computes _ _, frame⟩

theorem addi_iForm : IForm .addi 0x0001#16 (fun a imm r => (r.toNat : Int) = ((a.toNat : Int) + imm.toInt) % 65536) :=
  iForm_of_immediateOp 0#3 (fun imm a => aluAddSigned a (immSigned imm)) rfl (fun _ _ => rfl) (fun _ _ _ => rfl)
    fun a imm => immSigned_toInt imm ▸ aluAddSigned_toNat a (immSigned imm)

theorem slti_iForm : IForm .slti 0x0039#16 (fun a imm r => r = if a.toInt < imm.toInt then 0x0001#16 else 0x0000#16) :=
  iForm_of_immediateOp 7#3 (fun imm a => truthWord (signedLess a (immSigned imm))) rfl (fun _ _ => rfl)
    (fun _ _ _ => rfl) fun a imm => immSigned_toInt imm ▸ truthWord_signedLess a (immSigned imm)

/-- Settles O10: the sign-extended immediate is the same integer as its field, and the operations work on integers. -/
theorem signedImmediateForms : Obligations.SignedImmediateForms := ⟨addi_iForm, slti_iForm⟩

theorem andi_iForm : IForm .andi 0x0009#16
    (fun a imm r => ∀ k, k < 16 → r.getLsbD k = (a.getLsbD k && (decide (k < 7) && imm.getLsbD k))) :=
  iForm_of_immediateOp 1#3 (fun imm a => aluAnd a (immUnsigned imm)) rfl (fun _ _ => rfl) (fun _ _ _ => rfl)
    fun _ imm k _ => immUnsigned_getLsbD imm k ▸ BitVec.getLsbD_and

theorem ori_iForm : IForm .ori 0x0011#16
    (fun a imm r => ∀ k, k < 16 → r.getLsbD k = (a.getLsbD k || (decide (k < 7) && imm.getLsbD k))) :=
  iForm_of_immediateOp 2#3 (fun imm a => aluOr a (immUnsigned imm)) rfl (fun _ _ => rfl) (fun _ _ _ => rfl)
    fun _ imm k _ => immUnsigned_getLsbD imm k ▸ BitVec.getLsbD_or

theorem xori_iForm : IForm .xori 0x0019#16
    (fun a imm r => ∀ k, k < 16 → r.getLsbD k = (a.getLsbD k != (decide (k < 7) && imm.getLsbD k))) :=
  iForm_of_immediateOp 3#3 (fun imm a => aluXor a (immUnsigned imm)) rfl (fun _ _ => rfl) (fun _ _ _ => rfl)
    fun _ imm k _ => immUnsigned_getLsbD imm k ▸ BitVec.getLsbD_xor

/-- Settles O11: the operations are the bit vectors' own, and the zero-extended immediate is clear from bit 7 up. -/
theorem unsignedImmediateForms : Obligations.UnsignedImmediateForms := ⟨andi_iForm, ori_iForm, xori_iForm⟩

theorem slli_iForm : IForm .slli 0x0021#16 (fun a imm r => r.toNat = a.toNat * 2 ^ (imm.toNat % 16) % 65536) :=
  iForm_of_immediateOp 4#3 (fun imm a => aluSll a (immShift imm)) rfl (fun _ _ => rfl) (fun _ _ _ => rfl)
    fun a imm => immShift_eq imm ▸ aluSll_toNat a (immShift imm)

theorem srli_iForm : IForm .srli 0x0029#16 (fun a imm r => r.toNat = a.toNat / 2 ^ (imm.toNat % 16)) :=
  iForm_of_immediateOp 5#3 (fun imm a => aluSrl a (immShift imm)) rfl (fun _ _ => rfl) (fun _ _ _ => rfl)
    fun a imm => immShift_eq imm ▸ aluSrl_toNat a (immShift imm)

theorem srai_iForm : IForm .srai 0x0031#16 (fun a imm r => r.toInt = a.toInt.fdiv (2 ^ (imm.toNat % 16))) :=
  iForm_of_immediateOp 6#3 (fun imm a => aluSra a (immShift imm)) rfl (fun _ _ => rfl) (fun _ _ _ => rfl)
    fun a imm => immShift_eq imm ▸ aluSra_toInt a (immShift imm)

/-- Settles O12: each shift for any amount, taken at the low 4 bits of the immediate. -/
theorem immediateShiftsIgnoreHighBits : Obligations.ImmediateShiftsIgnoreHighBits :=
  ⟨slli_iForm, srli_iForm, srai_iForm⟩

end Sys2Proof.Machine
end

section
/-! PROOFS. The conditional branches (43_branch.md): the form they share, then each by the comparison it makes. -/

namespace Sys2Proof.Machine

open Sys2Proof.Safety

/-- Taken or not, a branch is one commit of the state it found (R122). -/
theorem branchOn_frame (test : Word → Word → Bool) (rs1 rs2 : Reg) (offset4 : BitVec 4) (s : State) :
    NoRegister s (branchOn test rs1 rs2 offset4 s) ∧ MemoryKept s (branchOn test rs1 rs2 offset4 s) ∧
      NoEvent s (branchOn test rs1 rs2 offset4 s) :=
  ⟨commitContinue_reg s s _, commitContinue_memoryKept _ rfl, commitContinue_noEvent _ rfl⟩

theorem branchOn_goesTo_taken {test : Word → Word → Bool} {rs1 rs2 : Reg} {s : State} (offset4 : BitVec 4)
    (holds : test (s.reg rs1) (s.reg rs2) = true) :
    GoesTo (s.pc.toNat + 2 * offset4.toInt) s (branchOn test rs1 rs2 offset4 s) := by
  rw [branchOn_taken offset4 holds]
  exact commitContinue_goesTo _ (.refl s)

theorem branchOn_goesTo_not_taken {test : Word → Word → Bool} {rs1 rs2 : Reg} {s : State} (offset4 : BitVec 4)
    (fails : test (s.reg rs1) (s.reg rs2) = false) :
    GoesTo (s.pc.toNat + 2) s (branchOn test rs1 rs2 offset4 s) := by
  rw [branchOn_not_taken offset4 fails]
  exact commitContinue_goesTo _ (.refl s)

/-- The word of a branch is its selector's word with the offset and the two register fields put in. -/
theorem encodeB_eq_fields {funct3 : BitVec 3} {base : Word} (selects : funct3.setWidth 16 <<< 3 ||| 2#16 = base)
    (rs1 rs2 : Reg) (offset4 : BitVec 4) :
    encodeB funct3 rs1 rs2 offset4 = field offset4 12 ||| field rs2.bits 9 ||| field rs1.bits 6 ||| base := by
  rw [encodeB_fields, BitVec.or_assoc, selects]; rfl

/-- An instruction with a branch word that runs as `branchOn test` makes the branch claim for the condition `test`
decides. -/
theorem branchForm_of_branchOn {mk : Reg → Reg → BitVec 4 → Instr} {base : Word} {cond : Word → Word → Prop}
    (funct3 : BitVec 3) (test : Word → Word → Bool) (selects : funct3.setWidth 16 <<< 3 ||| 2#16 = base)
    (encodes : ∀ rs1 rs2 offset4, encode (mk rs1 rs2 offset4) = encodeB funct3 rs1 rs2 offset4)
    (executes : ∀ rs1 rs2 offset4 s, exec (mk rs1 rs2 offset4) s = .next (branchOn test rs1 rs2 offset4 s))
    (decides : ∀ a b, test a b = true ↔ cond a b) : BranchForm mk base cond := by
  intro rs1 rs2 offset4 s
  obtain ⟨registers, memory, events⟩ := branchOn_frame test rs1 rs2 offset4 s
  refine ⟨(encodes rs1 rs2 offset4).trans (encodeB_eq_fields selects rs1 rs2 offset4), _,
    executes rs1 rs2 offset4 s, registers, memory, events, fun holds => ?_, fun fails => ?_⟩
  · exact branchOn_goesTo_taken offset4 ((decides _ _).mpr holds)
  · exact branchOn_goesTo_not_taken offset4 (Bool.eq_false_iff.mpr fun passed => fails ((decides _ _).mp passed))

theorem signedLess_iff (a b : Word) : signedLess a b = true ↔ a.toInt < b.toInt := decide_eq_true_iff

theorem unsignedLess_iff (a b : Word) : unsignedLess a b = true ↔ a.toNat < b.toNat := decide_eq_true_iff

theorem not_signedLess_iff (a b : Word) : (!signedLess a b) = true ↔ a.toInt ≥ b.toInt := by
  rw [Bool.not_eq_true', ← Bool.not_eq_true, signedLess_iff, Int.not_lt]

theorem not_unsignedLess_iff (a b : Word) : (!unsignedLess a b) = true ↔ a.toNat ≥ b.toNat := by
  rw [Bool.not_eq_true', ← Bool.not_eq_true, unsignedLess_iff, Nat.not_lt]

theorem beq_branchForm : BranchForm .beq 0x0002#16 (fun a b => a = b) :=
  branchForm_of_branchOn 0#3 (fun a b => decide (a = b)) rfl (fun _ _ _ => rfl) (fun _ _ _ _ => rfl)
    fun _ _ => decide_eq_true_iff

theorem bne_branchForm : BranchForm .bne 0x000A#16 (fun a b => a ≠ b) :=
  branchForm_of_branchOn 1#3 (fun a b => decide (a ≠ b)) rfl (fun _ _ _ => rfl) (fun _ _ _ _ => rfl)
    fun _ _ => decide_eq_true_iff

/-- Settles O13: both branches test decidable equality of the two words. -/
theorem equalityBranches : Obligations.EqualityBranches := ⟨beq_branchForm, bne_branchForm⟩

theorem blt_branchForm : BranchForm .blt 0x0012#16 (fun a b => a.toInt < b.toInt) :=
  branchForm_of_branchOn 2#3 signedLess rfl (fun _ _ _ => rfl) (fun _ _ _ _ => rfl) signedLess_iff

theorem bge_branchForm : BranchForm .bge 0x001A#16 (fun a b => a.toInt ≥ b.toInt) :=
  branchForm_of_branchOn 3#3 (fun a b => !signedLess a b) rfl (fun _ _ _ => rfl) (fun _ _ _ _ => rfl)
    not_signedLess_iff

/-- Settles O14: `bge` tests that `blt`'s comparison fails, which for integers is `≥`. -/
theorem signedBranches : Obligations.SignedBranches := ⟨blt_branchForm, bge_branchForm⟩

theorem bltu_branchForm : BranchForm .bltu 0x0022#16 (fun a b => a.toNat < b.toNat) :=
  branchForm_of_branchOn 4#3 unsignedLess rfl (fun _ _ _ => rfl) (fun _ _ _ _ => rfl) unsignedLess_iff

theorem bgeu_branchForm : BranchForm .bgeu 0x002A#16 (fun a b => a.toNat ≥ b.toNat) :=
  branchForm_of_branchOn 5#3 (fun a b => !unsignedLess a b) rfl (fun _ _ _ => rfl) (fun _ _ _ _ => rfl)
    not_unsignedLess_iff

/-- Settles O15: `bgeu` tests that `bltu`'s comparison fails, which for natural numbers is `≥`. -/
theorem unsignedBranches : Obligations.UnsignedBranches := ⟨bltu_branchForm, bgeu_branchForm⟩

end Sys2Proof.Machine
end

section
/-! PROOFS. Loads and stores, what the two have in common: their word, and the access that fails its check
(44_load_store.md R130, R138). -/

namespace Sys2Proof.Machine

open Sys2Proof.Safety

/-- The word of a load or store is its selector's word with the offset and the two register fields put in. -/
theorem encodeLS_eq_fields {funct3 : BitVec 3} {base : Word} (selects : funct3.setWidth 16 <<< 3 ||| 3#16 = base)
    (r rs1 : Reg) (offset4 : BitVec 4) :
    encodeLS funct3 r rs1 offset4 = field offset4 12 ||| field r.bits 9 ||| field rs1.bits 6 ||| base := by
  rw [encodeLS_fields, BitVec.or_assoc, selects]; rfl

/-- A fault committed on the state the instruction found writes only the run state and the record. -/
theorem commitOutOfBounds_outOfBoundsHalt (s : State) (ea : Int) (n : Nat) :
    OutOfBoundsHalt ea n s (commitOutOfBounds s s ea n) :=
  ⟨State.haltWith_run s _, rfl, rfl, rfl, State.haltWith_pc s _, State.haltWith_reg s _, fun _ => rfl,
    State.haltWith_out s _, State.haltWith_stepLimit s _⟩

end Sys2Proof.Machine
end

section
/-! PROOFS. The stores (44_load_store.md R132, R133): the form they share, then each by the write it makes. -/

namespace Sys2Proof.Machine

open Sys2Proof.Safety

/-- What an instruction that stores `n` bytes and goes on leaves: every byte but those, and all else as it was. -/
theorem commitContinue_store_frame {s : State} {m : Memory} {ea : Int} {n : Nat} (target : Int)
    (canonical : s.mem.wf = true → m.wf = true) (kept : MemoryKeptOutside ea n s { s with mem := m }) :
    MemoryKeptOutside ea n s (commitContinue s { s with mem := m } target) ∧
      NoRegister s (commitContinue s { s with mem := m } target) ∧
      NoEvent s (commitContinue s { s with mem := m } target) ∧
      GoesTo target s (commitContinue s { s with mem := m } target) := by
  refine ⟨fun a outside => ?_, fun r => ?_, commitContinue_noEvent target rfl,
    commitContinue_goesTo target (.store s m canonical)⟩
  · rw [commitContinue_mem, kept a outside]
  · rw [commitContinue_reg]; rfl

/-- What a store's write must do where it is admitted: `n` bytes related by `val` to the word, no other byte, and the
canonical form kept. -/
def WritesBytes (n : Nat) (val : (Nat → Byte) → Nat → Word → Prop) (write : Memory → Int → Word → Option Memory) : Prop :=
  ∀ {m m' : Memory} {ea : Int} {v : Word}, write m ea v = some m' →
    val m'.read ea.toNat v ∧ (∀ a : Nat, ((a : Int) < ea ∨ ea + n ≤ a) → m'.read a = m.read a) ∧
      (m.wf = true → m'.wf = true)

/-- An instruction with a store word that commits what `write` leaves makes the store claim for the relation `write`
meets. -/
theorem storeForm_of_write {mk : Reg → Reg → BitVec 4 → Instr} {base : Word} {n : Nat}
    {val : (Nat → Byte) → Nat → Word → Prop} (funct3 : BitVec 3) (write : Memory → Int → Word → Option Memory)
    (selects : funct3.setWidth 16 <<< 3 ||| 3#16 = base)
    (encodes : ∀ rs2 rs1 offset4, encode (mk rs2 rs1 offset4) = encodeLS funct3 rs2 rs1 offset4)
    (admitted : ∀ rs2 rs1 offset4 s, Admitted (loadStoreAddress s rs1 offset4) n →
      ∃ m, write s.mem (loadStoreAddress s rs1 offset4) (s.reg rs2) = some m ∧
        exec (mk rs2 rs1 offset4) s = .next (commitContinue s { s with mem := m } (s.pc.toNat + 2)))
    (refused : ∀ rs2 rs1 offset4 s, ¬Admitted (loadStoreAddress s rs1 offset4) n →
      exec (mk rs2 rs1 offset4) s = .next (commitOutOfBounds s s (loadStoreAddress s rs1 offset4) n))
    (writes : WritesBytes n val write) : StoreForm mk base n val := by
  intro rs2 rs1 offset4 s
  refine ⟨(encodes rs2 rs1 offset4).trans (encodeLS_eq_fields selects rs2 rs1 offset4), fun inside => ?_,
    fun outside => ?_⟩
  · obtain ⟨m, written, executes⟩ := admitted rs2 rs1 offset4 s inside
    obtain ⟨bytes, kept, canonical⟩ := writes written
    refine ⟨_, executes, ?_, commitContinue_store_frame _ canonical kept⟩
    rwa [commitContinue_mem]
  · exact ⟨_, refused rs2 rs1 offset4 s outside, commitOutOfBounds_outOfBoundsHalt s _ n⟩

theorem write1_writesBytes :
    WritesBytes 1 (fun mem ea v => (mem ea).toNat = v.toNat % 256) (fun m ea v => m.write1 ea (lowByte v)) := by
  intro m m' ea v written
  obtain ⟨inside, byte, others, canonical⟩ := Memory.write1_spec written
  exact ⟨(congrArg BitVec.toNat byte).trans (lowByte_toNat v), fun a outside => others a (by omega), canonical⟩

theorem write2_writesBytes :
    WritesBytes 2 (fun mem ea v => (mem ea).toNat = v.toNat % 256 ∧ (mem (ea + 1)).toNat = v.toNat / 256)
      Memory.write2 := by
  intro m m' ea v written
  obtain ⟨inside, low, high, others, canonical⟩ := Memory.write2_spec written
  exact ⟨⟨(congrArg BitVec.toNat low).trans (lowByte_toNat v), (congrArg BitVec.toNat high).trans (highByte_toNat v)⟩,
    fun a outside => others a (by omega) (by omega), canonical⟩

/-- Settles O16: `sb` writes the register's low byte by one checked write. -/
theorem storeByteWritesOneByte : Obligations.StoreByteWritesOneByte :=
  storeForm_of_write 0#3 (fun m ea v => m.write1 ea (lowByte v)) rfl (fun _ _ _ => rfl)
    (fun rs2 _ _ _ => execSb_admitted rs2 rfl) (fun rs2 _ _ _ => execSb_out_of_bounds rs2 rfl)
    write1_writesBytes

/-- Settles O17: `sw` makes one checked write, of both bytes or of neither. -/
theorem storeWordWritesTwoBytes : Obligations.StoreWordWritesTwoBytes :=
  storeForm_of_write 1#3 Memory.write2 rfl (fun _ _ _ => rfl) (fun rs2 _ _ _ => execSw_admitted rs2 rfl)
    (fun rs2 _ _ _ => execSw_out_of_bounds rs2 rfl) write2_writesBytes

end Sys2Proof.Machine
end

section
/-! PROOFS. The loads (44_load_store.md R134 to R137): the form they share, then by the width of the access. -/

namespace Sys2Proof.Machine

open Sys2Proof.Safety

/-- An instruction with a load word that commits the value `loaded` from memory makes the load claim for any relation
`loaded` meets. -/
theorem loadForm_of_load {mk : Reg → Reg → BitVec 4 → Instr} {base : Word} {n : Nat}
    {val : (Nat → Byte) → Nat → Word → Prop} (funct3 : BitVec 3) (loaded : (Nat → Byte) → Nat → Word)
    (selects : funct3.setWidth 16 <<< 3 ||| 3#16 = base)
    (encodes : ∀ rd rs1 offset4, encode (mk rd rs1 offset4) = encodeLS funct3 rd rs1 offset4)
    (admitted : ∀ rd rs1 offset4 s, Admitted (loadStoreAddress s rs1 offset4) n →
      exec (mk rd rs1 offset4) s = .next (commitContinue s
        (s.setReg rd (loaded s.mem.read (loadStoreAddress s rs1 offset4).toNat)) (s.pc.toNat + 2)))
    (refused : ∀ rd rs1 offset4 s, ¬Admitted (loadStoreAddress s rs1 offset4) n →
      exec (mk rd rs1 offset4) s = .next (commitOutOfBounds s s (loadStoreAddress s rs1 offset4) n))
    (computes : ∀ mem ea, val mem ea (loaded mem ea)) : LoadForm mk base n val := by
  intro rd rs1 offset4 s
  refine ⟨(encodes rd rs1 offset4).trans (encodeLS_eq_fields selects rd rs1 offset4), fun inside => ?_,
    fun outside => ?_⟩
  · obtain ⟨written, frame⟩ := commitContinue_setReg_frame rfl
    exact ⟨_, admitted rd rs1 offset4 s inside, written ▸ computes _ _, frame⟩
  · exact ⟨_, refused rd rs1 offset4 s outside, commitOutOfBounds_outOfBoundsHalt s _ n⟩

/-- A 1-byte load makes the load claim for any relation its extension meets. -/
theorem loadForm_of_loadByte {mk : Reg → Reg → BitVec 4 → Instr} {base : Word}
    {val : (Nat → Byte) → Nat → Word → Prop} (funct3 : BitVec 3) (ext : Byte → Word)
    (selects : funct3.setWidth 16 <<< 3 ||| 3#16 = base)
    (encodes : ∀ rd rs1 offset4, encode (mk rd rs1 offset4) = encodeLS funct3 rd rs1 offset4)
    (executes : ∀ rd rs1 offset4 s, exec (mk rd rs1 offset4) s = .next (loadByte ext rd rs1 offset4 s))
    (computes : ∀ mem ea, val mem ea (ext (mem ea))) : LoadForm mk base 1 val :=
  loadForm_of_load funct3 (fun mem ea => ext (mem ea)) selects encodes
    (fun rd rs1 offset4 s inside => by rw [executes, loadByte_admitted ext rd rfl inside]; rfl)
    (fun rd rs1 offset4 s outside => by rw [executes, loadByte_out_of_bounds ext rd rfl outside]; rfl)
    computes

/-- A 2-byte load makes the claim of `lw`, whatever its selector: the high byte is the one at the higher address. -/
theorem loadForm_of_loadHalf {mk : Reg → Reg → BitVec 4 → Instr} {base : Word} (funct3 : BitVec 3)
    (selects : funct3.setWidth 16 <<< 3 ||| 3#16 = base)
    (encodes : ∀ rd rs1 offset4, encode (mk rd rs1 offset4) = encodeLS funct3 rd rs1 offset4)
    (executes : ∀ rd rs1 offset4 s, exec (mk rd rs1 offset4) s = .next (loadHalf rd rs1 offset4 s)) :
    LoadForm mk base 2 (fun mem ea r => r.toNat = (mem (ea + 1)).toNat * 256 + (mem ea).toNat) :=
  loadForm_of_load funct3 (fun mem ea => mem (ea + 1) ++ mem ea) selects encodes
    (fun rd rs1 offset4 s inside => by rw [executes, loadHalf_admitted rd rfl inside]; rfl)
    (fun rd rs1 offset4 s outside => by rw [executes, loadHalf_out_of_bounds rd rfl outside]; rfl)
    (fun mem ea => wordOfBytes_toNat (mem ea) (mem (ea + 1)))

theorem byteSigned_toInt (b : Byte) : (byteSigned b).toInt = b.toInt := toInt_signExtend_of_le b (by decide)

theorem byteUnsigned_toNat (b : Byte) : (byteUnsigned b).toNat = b.toNat :=
  BitVec.toNat_setWidth_of_le (by decide)

theorem lb_loadForm : LoadForm .lb 0x0013#16 1 (fun mem ea r => r.toInt = (mem ea).toInt) :=
  loadForm_of_loadByte 2#3 byteSigned rfl (fun _ _ _ => rfl) (fun _ _ _ _ => rfl)
    fun mem ea => byteSigned_toInt (mem ea)

theorem lbu_loadForm : LoadForm .lbu 0x0023#16 1 (fun mem ea r => r.toNat = (mem ea).toNat) :=
  loadForm_of_loadByte 4#3 byteUnsigned rfl (fun _ _ _ => rfl) (fun _ _ _ _ => rfl)
    fun mem ea => byteUnsigned_toNat (mem ea)

/-- Settles O18: sign extension keeps the byte's signed value, zero extension its unsigned one. -/
theorem byteLoadsExtend : Obligations.ByteLoadsExtend := ⟨lb_loadForm, lbu_loadForm⟩

/-- Settles O19: `lw` is a 2-byte load. -/
theorem loadWordReadsTwoBytes : Obligations.LoadWordReadsTwoBytes :=
  loadForm_of_loadHalf 3#3 rfl (fun _ _ _ => rfl) (fun _ _ _ _ => rfl)

end Sys2Proof.Machine
end

section
/-! PROOFS. What `jal` and `jalr` have in common: the link they write, and the run going on to their target or ending
there with the link written (45_jal.md R139; 46_jalr.md R142; 40_execution_cycle.md R92). -/

namespace Sys2Proof.Machine

open Sys2Proof.Safety

theorem commitContinue_endsBeyond (s after : State) (target : Int) :
    EndsBeyond target (commitContinue s after target) := by
  intro outside
  rw [commitContinue_outside s after outside]
  exact ⟨rfl, rfl⟩

theorem linkAndGo_frame (rd : Reg) (target : Int) (s : State) :
    ((linkAndGo rd target s).reg rd).toNat = (s.pc.toNat + 2) % 65536 ∧
      OnlyRegister rd s (linkAndGo rd target s) ∧ MemoryKept s (linkAndGo rd target s) ∧
      NoEvent s (linkAndGo rd target s) ∧ GoesTo target s (linkAndGo rd target s) ∧
      EndsBeyond target (linkAndGo rd target s) := by
  obtain ⟨linked, registers, memory, events, goes⟩ := commitContinue_setReg_frame (linkAndGo_eq rd target s)
  refine ⟨?_, registers, memory, events, goes, commitContinue_endsBeyond s _ target⟩
  rw [linked, BitVec.toNat_ofNat]

end Sys2Proof.Machine
end

section
/-! PROOFS. `jal` (45_jal.md): which of its terms have a word, and what it does in every state. -/

namespace Sys2Proof.Machine

open Sys2Proof.Safety

/-- The shared bits are bits 6 to 4 of the byte offset, read as a signed integer: the sign adds a multiple of 8192 to
the field, which reaches none of them. -/
theorem jalSharedBits_toNat (offset13 : BitVec 13) :
    ((jalSharedBits offset13).toNat : Int) = 2 * offset13.toInt / 16 % 8 := by
  have unsigned : (jalSharedBits offset13).toNat = offset13.toNat / 8 % 8 := by
    rw [jalSharedBits, BitVec.extractLsb'_toNat, Nat.shiftRight_eq_div_pow]
  rw [BitVec.toInt_eq_toNat_cond, unsigned]
  split <;> omega

theorem jal_wellFormed_iff (rd : Reg) (offset13 : BitVec 13) :
    (Instr.jal rd offset13).wellFormed = true ↔ 2 * offset13.toInt / 16 % 8 = rd.bits.toNat := by
  have checks : (Instr.jal rd offset13).wellFormed = true ↔ jalSharedBits offset13 = rd.bits := decide_eq_true_iff
  rw [checks, ← jalSharedBits_toNat, Int.natCast_inj, BitVec.toNat_inj]

theorem exec_jal (rd : Reg) (offset13 : BitVec 13) (s : State) :
    exec (.jal rd offset13) s = .next (linkAndGo rd (s.pc.toNat + 2 * offset13.toInt) s) := by
  rw [← jalTarget_eq]; rfl

/-- Settles O21: `jal` links and goes to pc plus twice its field, whether or not that field's own bits name `rd`. -/
theorem jalLinksAndJumps : Obligations.JalLinksAndJumps :=
  fun rd offset13 s =>
    ⟨jal_wellFormed_iff rd offset13, encode_jal_fields rd offset13, _, exec_jal rd offset13 s, linkAndGo_frame rd _ s⟩

end Sys2Proof.Machine
end

section
/-! PROOFS. The ecall services (48_sys.md): what emitting and going on leaves alone, then printing an integer (R148). -/

namespace Sys2Proof.Machine

open Sys2Proof.Safety

/-- What an instruction that only emits and goes on leaves: the stream with its events added, and all else as it was. -/
theorem commitContinue_emit_frame (s : State) (es : List Event) (target : Int) :
    (commitContinue s (s.emit es) target).out = s.out ++ es ∧
      (commitContinue s (s.emit es) target).stepLimit = s.stepLimit ∧
      NoRegister s (commitContinue s (s.emit es) target) ∧ MemoryKept s (commitContinue s (s.emit es) target) ∧
      GoesTo target s (commitContinue s (s.emit es) target) := by
  refine ⟨?_, commitContinue_stepLimit s _ target, fun r => ?_, commitContinue_memoryKept target rfl,
    commitContinue_goesTo target (.emit s es)⟩
  · rw [commitContinue_out, State.emit_out]
  · rw [commitContinue_reg, State.emit_reg]

theorem exec_ecallPrintInt (s : State) :
    exec .ecallPrintInt s =
      .next (commitContinue s (s.emit [.printInt (s.reg ecallReg)]) (s.pc.toNat + 2)) := rfl

/-- Settles O24: `ecall 1` emits its one event and goes on to pc + 2. -/
theorem printIntegerEmitsRegister : Obligations.PrintIntegerEmitsRegister :=
  fun s => ⟨rfl, _, exec_ecallPrintInt s, commitContinue_emit_frame s _ _⟩

end Sys2Proof.Machine
end

section
/-! PROOFS. The loader (70_reset_and_hazards.md R169): what a loaded image reads as, then the launch state. -/

namespace Sys2Proof.Machine

/-- An image starts at address 0, so each byte of memory is the byte of the file with the same number. -/
theorem loadImage_read (file : List Byte) {a : Nat} (ha : a < 65536) : (loadImage file).read a = file.getD a 0 :=
  calc (loadFrom 0 file).read a
    _ = if 0 ≤ a then file.getD (a - 0) 0 else 0 := loadFrom_read file 0 a ha
    _ = file.getD a 0 := if_pos a.zero_le

/-- Settles O38: pc and run state are those of reset, and memory is the loaded image. -/
theorem bootLoadsTheImage : Obligations.BootLoadsTheImage :=
  fun _limit file => ⟨rfl, rfl, fun _a ha => loadImage_read file ha⟩

end Sys2Proof.Machine
end

section
/-! PROOFS. The encoder's words read field by field, for each layout (30_encoding.md R63 to R70), and the decoder on
them: decoding undoes encoding (R81, R84). -/

namespace Sys2Proof

/-- The fields of the R, branch and load/store layouts. -/
theorem fields_4_3_3_3_3 (a : BitVec 4) (b c d e : BitVec 3) :
    (a ++ b ++ c ++ d ++ e).extractLsb' 12 4 = a ∧ (a ++ b ++ c ++ d ++ e).extractLsb' 9 3 = b ∧
      (a ++ b ++ c ++ d ++ e).extractLsb' 6 3 = c ∧ (a ++ b ++ c ++ d ++ e).extractLsb' 3 3 = d ∧
      (a ++ b ++ c ++ d ++ e).extractLsb' 0 3 = e := by
  refine ⟨?_, ?_, ?_, ?_, ?_⟩ <;>
    simp (disch := decide) only [BitVec.extractLsb'_append_eq_of_le, BitVec.extractLsb'_append_eq_right,
      BitVec.extractLsb'_eq_self, Nat.reduceSub]

/-- The fields of the I and `jalr` layouts. -/
theorem fields_7_3_3_3 (a : BitVec 7) (b c d : BitVec 3) :
    (a ++ b ++ c ++ d).extractLsb' 9 7 = a ∧ (a ++ b ++ c ++ d).extractLsb' 6 3 = b ∧
      (a ++ b ++ c ++ d).extractLsb' 3 3 = c ∧ (a ++ b ++ c ++ d).extractLsb' 0 3 = d := by
  refine ⟨?_, ?_, ?_, ?_⟩ <;>
    simp (disch := decide) only [BitVec.extractLsb'_append_eq_of_le, BitVec.extractLsb'_append_eq_right,
      BitVec.extractLsb'_eq_self, Nat.reduceSub]

theorem decode_encodeR (funct4 : BitVec 4) (rd rs2 : Reg) :
    decode (encodeR funct4 rd rs2) =
      orUnknownFunct (encodeR funct4 rd rs2) ((rTable funct4.toNat).map fun mk => mk rd rs2) := by
  obtain ⟨functEq, rs2Eq, rdEq, zeroEq, opcodeEq⟩ := fields_4_3_3_3_3 funct4 rs2.bits rd.bits 0#3 0#3
  simp only [decode, encodeR, selector, regMid, regHigh, functEq, rs2Eq, rdEq, zeroEq, opcodeEq, Reg.ofBits_bits]
  rfl

theorem decode_encodeI (funct3 : BitVec 3) (rd : Reg) (imm7 : BitVec 7) :
    decode (encodeI funct3 rd imm7) =
      orUnknownFunct (encodeI funct3 rd imm7) ((iTable funct3.toNat).map fun mk => mk rd imm7) := by
  obtain ⟨immEq, rdEq, functEq, opcodeEq⟩ := fields_7_3_3_3 imm7 rd.bits funct3 1#3
  simp only [decode, encodeI, selector, regMid, imm7At, immEq, rdEq, functEq, opcodeEq, Reg.ofBits_bits]
  rfl

theorem decode_encodeB (funct3 : BitVec 3) (rs1 rs2 : Reg) (offset4 : BitVec 4) :
    decode (encodeB funct3 rs1 rs2 offset4) =
      orUnknownFunct (encodeB funct3 rs1 rs2 offset4) ((bTable funct3.toNat).map fun mk => mk rs1 rs2 offset4) := by
  obtain ⟨offsetEq, rs2Eq, rs1Eq, functEq, opcodeEq⟩ := fields_4_3_3_3_3 offset4 rs2.bits rs1.bits funct3 2#3
  simp only [decode, encodeB, selector, regMid, regHigh, offset4At, offsetEq, rs2Eq, rs1Eq, functEq, opcodeEq,
    Reg.ofBits_bits]
  rfl

theorem decode_encodeLS (funct3 : BitVec 3) (r rs1 : Reg) (offset4 : BitVec 4) :
    decode (encodeLS funct3 r rs1 offset4) =
      orUnknownFunct (encodeLS funct3 r rs1 offset4) ((lsTable funct3.toNat).map fun mk => mk r rs1 offset4) := by
  obtain ⟨offsetEq, rEq, rs1Eq, functEq, opcodeEq⟩ := fields_4_3_3_3_3 offset4 r.bits rs1.bits funct3 3#3
  simp only [decode, encodeLS, selector, regMid, regHigh, offset4At, offsetEq, rEq, rs1Eq, functEq, opcodeEq,
    Reg.ofBits_bits]
  rfl

/-- `rd` comes back as the register of the shared bits, which is the term's own where it is well-formed. -/
theorem decode_encode_jal {rd : Reg} {offset13 : BitVec 13} (shared : jalSharedBits offset13 = rd.bits) :
    decode (encode (.jal rd offset13)) = .ok (.jal rd offset13) := by
  have opcodeEq : (offset13 ++ 4#3).extractLsb' 0 3 = 4#3 := BitVec.extractLsb'_append_eq_right
  have offsetEq : (offset13 ++ 4#3).extractLsb' 3 13 = offset13 := BitVec.extractLsb'_append_eq_left
  have rdEq : (offset13 ++ 4#3).extractLsb' 6 3 = rd.bits :=
    (BitVec.extractLsb'_append_eq_of_le (by decide)).trans shared
  simp only [decode, encode, selector, regMid, opcodeEq, offsetEq, rdEq, Reg.ofBits_bits]
  rfl

theorem decode_encode_jalr (rd rs1 : Reg) (offset7 : BitVec 7) :
    decode (encode (.jalr rd rs1 offset7)) = .ok (.jalr rd rs1 offset7) := by
  obtain ⟨offsetEq, rdEq, rs1Eq, opcodeEq⟩ := fields_7_3_3_3 offset7 rd.bits rs1.bits 5#3
  simp only [decode, encode, selector, regMid, regLow, imm7At, offsetEq, rdEq, rs1Eq, opcodeEq, Reg.ofBits_bits]
  rfl

theorem decode_encode_lui {rd : Reg} {imm12 : BitVec 12} (shared : luiSharedBits imm12 = rd.bits) :
    decode (encode (.lui rd imm12)) = .ok (.lui rd imm12) := by
  have opcodeEq : (imm12 ++ 0#1 ++ 6#3).extractLsb' 0 3 = 6#3 := BitVec.extractLsb'_append_eq_right
  have immEq : (imm12 ++ 0#1 ++ 6#3).extractLsb' 4 12 = imm12 :=
    (BitVec.extractLsb'_append_eq_of_le (by decide)).trans BitVec.extractLsb'_append_eq_left
  have rdEq : (imm12 ++ 0#1 ++ 6#3).extractLsb' 6 3 = rd.bits :=
    ((BitVec.extractLsb'_append_eq_of_le (by decide)).trans (BitVec.extractLsb'_append_eq_of_le (by decide))).trans shared
  simp only [decode, encode, selector, regMid, opcodeEq, immEq, rdEq, Reg.ofBits_bits]
  rfl

/-- Settles O1: each format's decoder finds the selector and the operands where the format's encoder put them. -/
theorem decodeOfEncodeIsIdentity : Obligations.DecodeOfEncodeIsIdentity := by
  intro i wellFormed
  cases i
  case add rd rs2 => exact decode_encodeR 0#4 rd rs2
  case sub rd rs2 => exact decode_encodeR 1#4 rd rs2
  case and rd rs2 => exact decode_encodeR 2#4 rd rs2
  case or rd rs2 => exact decode_encodeR 3#4 rd rs2
  case xor rd rs2 => exact decode_encodeR 4#4 rd rs2
  case sll rd rs2 => exact decode_encodeR 5#4 rd rs2
  case srl rd rs2 => exact decode_encodeR 6#4 rd rs2
  case sra rd rs2 => exact decode_encodeR 7#4 rd rs2
  case slt rd rs2 => exact decode_encodeR 8#4 rd rs2
  case sltu rd rs2 => exact decode_encodeR 9#4 rd rs2
  case addi rd imm7 => exact decode_encodeI 0#3 rd imm7
  case andi rd imm7 => exact decode_encodeI 1#3 rd imm7
  case ori rd imm7 => exact decode_encodeI 2#3 rd imm7
  case xori rd imm7 => exact decode_encodeI 3#3 rd imm7
  case slli rd imm7 => exact decode_encodeI 4#3 rd imm7
  case srli rd imm7 => exact decode_encodeI 5#3 rd imm7
  case srai rd imm7 => exact decode_encodeI 6#3 rd imm7
  case slti rd imm7 => exact decode_encodeI 7#3 rd imm7
  case beq rs1 rs2 offset4 => exact decode_encodeB 0#3 rs1 rs2 offset4
  case bne rs1 rs2 offset4 => exact decode_encodeB 1#3 rs1 rs2 offset4
  case blt rs1 rs2 offset4 => exact decode_encodeB 2#3 rs1 rs2 offset4
  case bge rs1 rs2 offset4 => exact decode_encodeB 3#3 rs1 rs2 offset4
  case bltu rs1 rs2 offset4 => exact decode_encodeB 4#3 rs1 rs2 offset4
  case bgeu rs1 rs2 offset4 => exact decode_encodeB 5#3 rs1 rs2 offset4
  case sb rs2 rs1 offset4 => exact decode_encodeLS 0#3 rs2 rs1 offset4
  case sw rs2 rs1 offset4 => exact decode_encodeLS 1#3 rs2 rs1 offset4
  case lb rd rs1 offset4 => exact decode_encodeLS 2#3 rd rs1 offset4
  case lw rd rs1 offset4 => exact decode_encodeLS 3#3 rd rs1 offset4
  case lbu rd rs1 offset4 => exact decode_encodeLS 4#3 rd rs1 offset4
  case lwu rd rs1 offset4 => exact decode_encodeLS 5#3 rd rs1 offset4
  case jal rd offset13 => exact decode_encode_jal (of_decide_eq_true wellFormed)
  case jalr rd rs1 offset7 => exact decode_encode_jalr rd rs1 offset7
  case lui rd imm12 => exact decode_encode_lui (of_decide_eq_true wellFormed)
  -- Left are the eight ecall services, which have no operand: each word is a literal.
  all_goals rfl

end Sys2Proof
end

section
/-! PROOFS. The decoder's selectors as numbers, and its tables: where each has no row (30_encoding.md R77 to R82). -/

namespace Sys2Proof

theorem opcode_eq (w : Word) : selector w 0 3 = w.toNat % 8 := by
  simp only [selector, BitVec.extractLsb'_toNat, Nat.shiftRight_zero, Nat.reducePow]

theorem funct3_eq (w : Word) : selector w 3 3 = w.toNat / 8 % 8 := by
  simp only [selector, BitVec.extractLsb'_toNat, Nat.shiftRight_eq_div_pow, Nat.reducePow]

theorem funct4_eq (w : Word) : selector w 12 4 = w.toNat / 4096 := by
  have inWord := w.isLt
  simp only [selector, BitVec.extractLsb'_toNat, Nat.shiftRight_eq_div_pow, Nat.reducePow]
  omega

/-- A table whose rows are the numbers below `rows` has none exactly from there up. -/
theorem table_eq_none_iff {α : Type} {table : Nat → Option α} {rows : Nat}
    (below : ∀ k, k < rows → (table k).isSome = true) (above : ∀ k, table (k + rows) = none) (n : Nat) :
    table n = none ↔ rows ≤ n := by
  constructor
  · intro noRow
    by_contra inTable
    have isRow := below n (Nat.lt_of_not_le inTable)
    rw [noRow] at isRow
    cases isRow
  · intro outside
    obtain ⟨k, rfl⟩ := Nat.exists_eq_add_of_le' outside
    exact above k

theorem rTable_eq_none_iff (funct4 : Nat) : rTable funct4 = none ↔ 10 ≤ funct4 :=
  table_eq_none_iff (by decide) (fun _ => rfl) funct4

theorem iTable_eq_none_iff (funct3 : Nat) : iTable funct3 = none ↔ 8 ≤ funct3 :=
  table_eq_none_iff (by decide) (fun _ => rfl) funct3

theorem bTable_eq_none_iff (funct3 : Nat) : bTable funct3 = none ↔ 6 ≤ funct3 :=
  table_eq_none_iff (by decide) (fun _ => rfl) funct3

theorem lsTable_eq_none_iff (funct3 : Nat) : lsTable funct3 = none ↔ 6 ≤ funct3 :=
  table_eq_none_iff (by decide) (fun _ => rfl) funct3

theorem sysTable_eq_none_iff (service : Nat) : sysTable service = none ↔ 8 ≤ service :=
  table_eq_none_iff (by decide) (fun _ => rfl) service

theorem orUnknownFunct_eq_ok {w : Word} {row : Option Instr} {i : Instr} :
    orUnknownFunct w row = .ok i ↔ row = some i := by
  cases row <;> simp [orUnknownFunct]

end Sys2Proof
end

section
/-! PROOFS. Which words are illegal (30_encoding.md R82): the decoder refuses those, with the word itself, and no other. -/

namespace Sys2Proof

open Sys2Proof.Safety

/-- The decoder's answer to a word is the one its legality calls for. -/
def AnswersByLegality (w : Word) (answer : DecodeResult) : Prop :=
  (IllegalWord w ∧ answer = .error (.unknownFunct w)) ∨ (¬IllegalWord w ∧ ∃ i, answer = .ok i)

theorem answersByLegality_orUnknownFunct {w : Word} {row : Option Instr} (noRow : row = none ↔ IllegalWord w) :
    AnswersByLegality w (orUnknownFunct w row) := by
  cases row with
  | none => exact .inl ⟨noRow.mp rfl, rfl⟩
  | some i => exact .inr ⟨fun illegal => Option.some_ne_none i (noRow.mpr illegal), i, rfl⟩

theorem not_illegalWord_of_opcode {w : Word} (opcode : w.toNat % 8 = 1 ∨ 4 ≤ w.toNat % 8) : ¬IllegalWord w := by
  unfold IllegalWord; omega

theorem decode_answersByLegality (w : Word) : AnswersByLegality w (decode w) := by
  unfold decode
  simp only [opcode_eq, funct3_eq, funct4_eq]
  split
  · split
    · apply answersByLegality_orUnknownFunct
      rw [Option.map_eq_none_iff, rTable_eq_none_iff, IllegalWord]; omega
    · refine .inl ⟨?_, rfl⟩
      unfold IllegalWord; omega
  · apply answersByLegality_orUnknownFunct
    rw [Option.map_eq_none_iff, iTable_eq_none_iff, IllegalWord]; omega
  · apply answersByLegality_orUnknownFunct
    rw [Option.map_eq_none_iff, bTable_eq_none_iff, IllegalWord]; omega
  · apply answersByLegality_orUnknownFunct
    rw [Option.map_eq_none_iff, lsTable_eq_none_iff, IllegalWord]; omega
  · exact .inr ⟨not_illegalWord_of_opcode (by omega), _, rfl⟩
  · exact .inr ⟨not_illegalWord_of_opcode (by omega), _, rfl⟩
  · exact .inr ⟨not_illegalWord_of_opcode (by omega), _, rfl⟩
  · apply answersByLegality_orUnknownFunct
    rw [sysTable_eq_none_iff, IllegalWord]; omega
  · simp only [imp_false] at *
    omega

theorem decode_eq_error_iff (w : Word) : decode w = .error (.unknownFunct w) ↔ IllegalWord w := by
  obtain ⟨illegal, refused⟩ | ⟨legal, i, decoded⟩ := decode_answersByLegality w
  · exact iff_of_true refused illegal
  · exact iff_of_false (by rw [decoded]; nofun) legal

theorem exists_decode_eq_ok_iff (w : Word) : (∃ i, decode w = .ok i) ↔ ¬IllegalWord w := by
  obtain ⟨illegal, refused⟩ | ⟨legal, decoded⟩ := decode_answersByLegality w
  · exact iff_of_false (by rw [refused]; nofun) (not_not_intro illegal)
  · exact iff_of_true decoded legal

/-- Settles O3: opcode by opcode, the decoder has no row exactly where the list has the word. -/
theorem illegalWordsAreExactlyTheListed : Obligations.IllegalWordsAreExactlyTheListed :=
  fun w => ⟨(decode_eq_error_iff w).symm, (exists_decode_eq_ok_iff w).symm⟩

/-- Settles O5: ten literal words. -/
theorem writtenWordsDecode : Obligations.WrittenWordsDecode := by
  unfold Obligations.WrittenWordsDecode
  decide

end Sys2Proof
end

section
/-! PROOFS. The bits a format ignores (30_encoding.md R69, R70, R83): the decoder does not read them, and the word of a
decoded instruction is the word it was read from with them cleared. -/

namespace Sys2Proof

open Sys2Proof.Safety

/-! ### Clearing them -/

theorem withoutIgnoredBits_lui {w : Word} (opcode : selector w 0 3 = 6) : withoutIgnoredBits w = w &&& 0xFFF7#16 := by
  rw [opcode_eq] at opcode
  exact if_pos opcode

theorem withoutIgnoredBits_sys {w : Word} (opcode : selector w 0 3 = 7) : withoutIgnoredBits w = w &&& 0x003F#16 := by
  rw [opcode_eq] at opcode
  rw [withoutIgnoredBits, if_neg (by omega), if_pos opcode]

theorem withoutIgnoredBits_other {w : Word} (opcode : selector w 0 3 < 6) : withoutIgnoredBits w = w := by
  rw [opcode_eq] at opcode
  rw [withoutIgnoredBits, if_neg (by omega), if_neg (by omega)]

/-- A field all of whose bits a mask keeps. -/
theorem extractLsb'_and_kept {w mask : Word} {lo len : Nat} (kept : mask.extractLsb' lo len = BitVec.allOnes len) :
    (w &&& mask).extractLsb' lo len = w.extractLsb' lo len := by
  rw [BitVec.extractLsb'_and, kept, BitVec.and_allOnes]

/-- A field none of whose bits a mask keeps. -/
theorem extractLsb'_and_cleared {w mask : Word} {lo len : Nat} (cleared : mask.extractLsb' lo len = 0#len) :
    (w &&& mask).extractLsb' lo len = 0#len := by
  rw [BitVec.extractLsb'_and, cleared, BitVec.and_zero]

theorem decode_lui {w : Word} (opcode : selector w 0 3 = 6) :
    decode w = .ok (.lui (regMid w) (w.extractLsb' 4 12)) := by
  simp only [decode, opcode]

theorem decode_sys {w : Word} (opcode : selector w 0 3 = 7) :
    decode w = orUnknownFunct w (sysTable (selector w 3 3)) := by
  simp only [decode, opcode]

theorem decode_lui_masked {w : Word} (opcode : selector w 0 3 = 6) : decode (w &&& 0xFFF7#16) = decode w := by
  have opcodeKept : selector (w &&& 0xFFF7#16) 0 3 = 6 := by rw [selector, extractLsb'_and_kept rfl]; exact opcode
  rw [decode_lui opcodeKept, decode_lui opcode, regMid, regMid, extractLsb'_and_kept rfl, extractLsb'_and_kept rfl]

/-- Every service has a row, so the answer carries no word and none of its ignored bits. -/
theorem orUnknownFunct_sysTable (v w : Word) {service : Nat} (fits : service < 8) :
    orUnknownFunct v (sysTable service) = orUnknownFunct w (sysTable service) := by
  cases row : sysTable service with
  | none => exact absurd ((sysTable_eq_none_iff service).mp row) (Nat.not_le.mpr fits)
  | some i => rfl

theorem decode_sys_masked {w : Word} (opcode : selector w 0 3 = 7) : decode (w &&& 0x003F#16) = decode w := by
  have opcodeKept : selector (w &&& 0x003F#16) 0 3 = 7 := by rw [selector, extractLsb'_and_kept rfl]; exact opcode
  have serviceKept : selector (w &&& 0x003F#16) 3 3 = selector w 3 3 := by rw [selector, extractLsb'_and_kept rfl]; rfl
  rw [decode_sys opcodeKept, decode_sys opcode, serviceKept]
  exact orUnknownFunct_sysTable _ _ (BitVec.isLt _)

theorem decode_withoutIgnoredBits {w : Word} (opcode : w.toNat % 8 = 6 ∨ w.toNat % 8 = 7) :
    decode (withoutIgnoredBits w) = decode w := by
  rw [← opcode_eq] at opcode
  obtain isLui | isSys := opcode
  · rw [withoutIgnoredBits_lui isLui, decode_lui_masked isLui]
  · rw [withoutIgnoredBits_sys isSys, decode_sys_masked isSys]

/-- Settles O4: both words decode as their common word without ignored bits does. -/
theorem ignoredBitsDoNotChangeDecoding : Obligations.IgnoredBitsDoNotChangeDecoding := by
  intro v w sameOpcode sameWord opcode
  calc decode v
    _ = decode (withoutIgnoredBits v) := (decode_withoutIgnoredBits (sameOpcode ▸ opcode)).symm
    _ = decode (withoutIgnoredBits w) := by rw [sameWord]
    _ = decode w := decode_withoutIgnoredBits opcode

/-! ### Encoding what was decoded -/

/-- A selector's field, from the number the decoder found in it. -/
theorem extractLsb'_of_selector {w : Word} {lo len n : Nat} (found : selector w lo len = n) :
    w.extractLsb' lo len = BitVec.ofNat len n := by
  rw [← found, selector, BitVec.ofNat_toNat, BitVec.setWidth_eq]

theorem encode_rTable {funct4 : Nat} {mk : Reg → Reg → Instr} (row : rTable funct4 = some mk) (rd rs2 : Reg) :
    (mk rd rs2).wellFormed = true ∧ encode (mk rd rs2) = encodeR (BitVec.ofNat 4 funct4) rd rs2 := by
  unfold rTable at row
  split at row <;> cases row <;> exact ⟨rfl, rfl⟩

theorem encode_iTable {funct3 : Nat} {mk : Reg → BitVec 7 → Instr} (row : iTable funct3 = some mk) (rd : Reg)
    (imm7 : BitVec 7) :
    (mk rd imm7).wellFormed = true ∧ encode (mk rd imm7) = encodeI (BitVec.ofNat 3 funct3) rd imm7 := by
  unfold iTable at row
  split at row <;> cases row <;> exact ⟨rfl, rfl⟩

theorem encode_bTable {funct3 : Nat} {mk : Reg → Reg → BitVec 4 → Instr} (row : bTable funct3 = some mk)
    (rs1 rs2 : Reg) (offset4 : BitVec 4) :
    (mk rs1 rs2 offset4).wellFormed = true ∧
      encode (mk rs1 rs2 offset4) = encodeB (BitVec.ofNat 3 funct3) rs1 rs2 offset4 := by
  unfold bTable at row
  split at row <;> cases row <;> exact ⟨rfl, rfl⟩

theorem encode_lsTable {funct3 : Nat} {mk : Reg → Reg → BitVec 4 → Instr} (row : lsTable funct3 = some mk)
    (r rs1 : Reg) (offset4 : BitVec 4) :
    (mk r rs1 offset4).wellFormed = true ∧
      encode (mk r rs1 offset4) = encodeLS (BitVec.ofNat 3 funct3) r rs1 offset4 := by
  unfold lsTable at row
  split at row <;> cases row <;> exact ⟨rfl, rfl⟩

theorem encode_sysTable {service : Nat} {i : Instr} (row : sysTable service = some i) :
    i.wellFormed = true ∧ encode i = encodeSys (BitVec.ofNat 3 service) := by
  unfold sysTable at row
  split at row <;> cases row <;> exact ⟨rfl, rfl⟩

/-- A word is its fields put together again, in the R, branch and load/store layouts. -/
theorem append_fields_4_3_3_3_3 (w : Word) :
    w.extractLsb' 12 4 ++ w.extractLsb' 9 3 ++ w.extractLsb' 6 3 ++ w.extractLsb' 3 3 ++ w.extractLsb' 0 3 = w := by
  simp only [BitVec.extractLsb'_append_extractLsb'_eq_extractLsb']
  exact BitVec.extractLsb'_eq_self

/-- The same in the I and `jalr` layouts. -/
theorem append_fields_7_3_3_3 (w : Word) :
    w.extractLsb' 9 7 ++ w.extractLsb' 6 3 ++ w.extractLsb' 3 3 ++ w.extractLsb' 0 3 = w := by
  simp only [BitVec.extractLsb'_append_extractLsb'_eq_extractLsb']
  exact BitVec.extractLsb'_eq_self

theorem encodeR_of_decoded {w : Word} (opcode : selector w 0 3 = 0) (funct3 : selector w 3 3 = 0) :
    encodeR (BitVec.ofNat 4 (selector w 12 4)) (regMid w) (regHigh w) = w := by
  have reassembled := append_fields_4_3_3_3_3 w
  rw [extractLsb'_of_selector funct3, extractLsb'_of_selector opcode] at reassembled
  rw [encodeR, regMid, regHigh, Reg.bits_ofBits, Reg.bits_ofBits, ← extractLsb'_of_selector rfl]
  exact reassembled

theorem encodeI_of_decoded {w : Word} (opcode : selector w 0 3 = 1) :
    encodeI (BitVec.ofNat 3 (selector w 3 3)) (regMid w) (imm7At w) = w := by
  rw [encodeI, regMid, Reg.bits_ofBits, ← extractLsb'_of_selector rfl, ← extractLsb'_of_selector opcode]
  exact append_fields_7_3_3_3 w

theorem encodeB_of_decoded {w : Word} (opcode : selector w 0 3 = 2) :
    encodeB (BitVec.ofNat 3 (selector w 3 3)) (regMid w) (regHigh w) (offset4At w) = w := by
  rw [encodeB, regMid, regHigh, Reg.bits_ofBits, Reg.bits_ofBits, ← extractLsb'_of_selector rfl,
    ← extractLsb'_of_selector opcode]
  exact append_fields_4_3_3_3_3 w

theorem encodeLS_of_decoded {w : Word} (opcode : selector w 0 3 = 3) :
    encodeLS (BitVec.ofNat 3 (selector w 3 3)) (regHigh w) (regMid w) (offset4At w) = w := by
  rw [encodeLS, regMid, regHigh, Reg.bits_ofBits, Reg.bits_ofBits, ← extractLsb'_of_selector rfl,
    ← extractLsb'_of_selector opcode]
  exact append_fields_4_3_3_3_3 w

theorem encode_jal_of_decoded {w : Word} (opcode : selector w 0 3 = 4) :
    encode (.jal (regMid w) (w.extractLsb' 3 13)) = w := by
  rw [encode, ← extractLsb'_of_selector opcode]
  simp only [BitVec.extractLsb'_append_extractLsb'_eq_extractLsb']
  exact BitVec.extractLsb'_eq_self

theorem encode_jalr_of_decoded {w : Word} (opcode : selector w 0 3 = 5) :
    encode (.jalr (regMid w) (regLow w) (imm7At w)) = w := by
  rw [encode, regMid, regLow, Reg.bits_ofBits, Reg.bits_ofBits, ← extractLsb'_of_selector opcode]
  exact append_fields_7_3_3_3 w

theorem encode_lui_of_decoded {w : Word} (opcode : selector w 0 3 = 6) :
    encode (.lui (regMid w) (w.extractLsb' 4 12)) = withoutIgnoredBits w := by
  have reassembled : (w &&& 0xFFF7#16).extractLsb' 4 12 ++ (w &&& 0xFFF7#16).extractLsb' 3 1 ++
      (w &&& 0xFFF7#16).extractLsb' 0 3 = w &&& 0xFFF7#16 := by
    simp only [BitVec.extractLsb'_append_extractLsb'_eq_extractLsb']
    exact BitVec.extractLsb'_eq_self
  rw [extractLsb'_and_kept rfl, extractLsb'_and_cleared rfl, extractLsb'_and_kept rfl,
    extractLsb'_of_selector opcode] at reassembled
  rw [withoutIgnoredBits_lui opcode, ← reassembled]
  rfl

theorem encodeSys_of_decoded {w : Word} (opcode : selector w 0 3 = 7) :
    encodeSys (BitVec.ofNat 3 (selector w 3 3)) = withoutIgnoredBits w := by
  have reassembled : (w &&& 0x003F#16).extractLsb' 6 10 ++ (w &&& 0x003F#16).extractLsb' 3 3 ++
      (w &&& 0x003F#16).extractLsb' 0 3 = w &&& 0x003F#16 := by
    simp only [BitVec.extractLsb'_append_extractLsb'_eq_extractLsb']
    exact BitVec.extractLsb'_eq_self
  rw [extractLsb'_and_cleared rfl, extractLsb'_and_kept rfl, extractLsb'_and_kept rfl,
    extractLsb'_of_selector opcode, extractLsb'_of_selector rfl] at reassembled
  rw [withoutIgnoredBits_sys opcode, ← reassembled]
  rfl

/-- A field of a field is a field of the word. -/
theorem extractLsb'_extractLsb' (w : Word) {lo len lo' len' : Nat} (within : lo' + len' ≤ len) :
    (w.extractLsb' lo len).extractLsb' lo' len' = w.extractLsb' (lo + lo') len' := by
  ext k hk
  have inField : lo' + k < len := by omega
  simp [inField, Nat.add_assoc]

/-- The register field of a `jal` word lies in its offset field. -/
theorem jalSharedBits_of_word (w : Word) : jalSharedBits (w.extractLsb' 3 13) = (regMid w).bits := by
  rw [jalSharedBits, regMid, Reg.bits_ofBits, extractLsb'_extractLsb' w (by decide)]

/-- The register field of a `lui` word lies in its immediate field. -/
theorem luiSharedBits_of_word (w : Word) : luiSharedBits (w.extractLsb' 4 12) = (regMid w).bits := by
  rw [luiSharedBits, regMid, Reg.bits_ofBits, extractLsb'_extractLsb' w (by decide)]

/-- Settles O2: each format's encoder puts the fields back where its decoder found them. -/
theorem encodeOfDecodeClearsIgnoredBits : Obligations.EncodeOfDecodeClearsIgnoredBits := by
  intro w i decoded
  unfold decode at decoded
  split at decoded
  case h_1 opcode =>
    split at decoded
    case isTrue funct3 =>
      obtain ⟨mk, row, rfl⟩ := Option.map_eq_some_iff.mp (orUnknownFunct_eq_ok.mp decoded)
      obtain ⟨wellFormed, encodes⟩ := encode_rTable row (regMid w) (regHigh w)
      rw [withoutIgnoredBits_other (by omega)]
      exact ⟨wellFormed, encodes.trans (encodeR_of_decoded opcode funct3)⟩
    case isFalse => cases decoded
  case h_2 opcode =>
    obtain ⟨mk, row, rfl⟩ := Option.map_eq_some_iff.mp (orUnknownFunct_eq_ok.mp decoded)
    obtain ⟨wellFormed, encodes⟩ := encode_iTable row (regMid w) (imm7At w)
    rw [withoutIgnoredBits_other (by omega)]
    exact ⟨wellFormed, encodes.trans (encodeI_of_decoded opcode)⟩
  case h_3 opcode =>
    obtain ⟨mk, row, rfl⟩ := Option.map_eq_some_iff.mp (orUnknownFunct_eq_ok.mp decoded)
    obtain ⟨wellFormed, encodes⟩ := encode_bTable row (regMid w) (regHigh w) (offset4At w)
    rw [withoutIgnoredBits_other (by omega)]
    exact ⟨wellFormed, encodes.trans (encodeB_of_decoded opcode)⟩
  case h_4 opcode =>
    obtain ⟨mk, row, rfl⟩ := Option.map_eq_some_iff.mp (orUnknownFunct_eq_ok.mp decoded)
    obtain ⟨wellFormed, encodes⟩ := encode_lsTable row (regHigh w) (regMid w) (offset4At w)
    rw [withoutIgnoredBits_other (by omega)]
    exact ⟨wellFormed, encodes.trans (encodeLS_of_decoded opcode)⟩
  case h_5 opcode =>
    cases decoded
    rw [withoutIgnoredBits_other (by omega)]
    exact ⟨decide_eq_true (jalSharedBits_of_word w), encode_jal_of_decoded opcode⟩
  case h_6 opcode =>
    cases decoded
    rw [withoutIgnoredBits_other (by omega)]
    exact ⟨rfl, encode_jalr_of_decoded opcode⟩
  case h_7 opcode =>
    cases decoded
    exact ⟨decide_eq_true (luiSharedBits_of_word w), encode_lui_of_decoded opcode⟩
  case h_8 opcode =>
    obtain ⟨wellFormed, encodes⟩ := encode_sysTable (orUnknownFunct_eq_ok.mp decoded)
    exact ⟨wellFormed, encodes.trans (encodeSys_of_decoded opcode)⟩
  case h_9 => cases decoded

end Sys2Proof
end

section
/-! PROOFS. The invariant `Consistent` (10_state.md R25, R34): the launch states meet it, and every step keeps it. -/

namespace Sys2Proof.Machine

open Sys2Proof.Safety

/-- A halt keeps the invariant: pc and memory stay, and the record names a reason and pc. -/
theorem consistent_halted {s t : State} (consistent : Consistent s) (pc : t.pc = s.pc)
    (memory : s.mem.wf = true → t.mem.wf = true) (run : t.run = .halted)
    (reason : t.halt.reason ≠ .none ∧ t.halt.reason ≠ .decodeUnknownOpcode) (faultPc : t.halt.faultPc = s.pc) :
    Consistent t :=
  { pcEven := pc ▸ consistent.pcEven
    memoryCanonical := memory consistent.memoryCanonical
    runningClear := fun running => by rw [run] at running; cases running
    haltedSays := fun _ => ⟨reason.1, reason.2, faultPc.trans pc.symm⟩ }

theorem consistent_commitContinue {s after : State} {target : Int} (consistent : Consistent s)
    (running : s.run = .running) (effect : Effect s after) (even : target % 2 = 0) :
    Consistent (commitContinue s after target) := by
  by_cases inside : 0 ≤ target ∧ target < 65536
  · have pc := commitContinue_pc_inside s after inside
    have run := (commitContinue_run_inside s after inside).trans (effect.run.trans running)
    have halt := (commitContinue_halt_inside s after inside).trans effect.halt
    exact
      { pcEven := by omega
        memoryCanonical := by rw [commitContinue_mem]; exact effect.memory consistent.memoryCanonical
        runningClear := fun _ => halt.trans (consistent.runningClear running)
        haltedSays := fun halted => by rw [run] at halted; cases halted }
  · rw [commitContinue_outside s after inside]
    exact consistent_halted consistent effect.pc effect.memory rfl ⟨nofun, nofun⟩ rfl

theorem consistent_of_ending {i : Instr} {s t : State} (consistent : Consistent s) (running : s.run = .running)
    (ending : Ending i s t) : Consistent t := by
  cases ending with
  | continues after target effect even =>
    exact consistent_commitContinue consistent running effect (even consistent.pcEven)
  | halts => exact consistent_halted consistent rfl id rfl ⟨nofun, nofun⟩ rfl
  | faults after ea n effect =>
    exact consistent_halted consistent effect.pc effect.memory rfl ⟨nofun, nofun⟩ rfl

/-- A refused word is refused as itself, with no other error (30_encoding.md R82). -/
theorem decode_error_eq {w : Word} {e : DecodeError} (refused : decode w = .error e) : e = .unknownFunct w := by
  obtain ⟨-, unknownFunct⟩ | ⟨-, i, decoded⟩ := decode_answersByLegality w
  · exact Except.error.inj (refused.symm.trans unknownFunct)
  · rw [refused] at decoded; cases decoded

/-- Settles O36: a step is one of the three halts before an instruction, or ends as an instruction can. -/
theorem stepKeepsConsistency : Obligations.StepKeepsConsistency := by
  intro s t consistent stepped
  obtain ⟨running, ⟨-, rfl⟩ | ⟨-, -, rfl⟩ | ⟨-, w, e, -, refused, rfl⟩ | ⟨-, w, i, -, -, executed⟩⟩ :=
    step_cases stepped
  · exact consistent_halted consistent rfl id rfl ⟨nofun, nofun⟩ rfl
  · exact consistent_halted consistent rfl id rfl ⟨nofun, nofun⟩ rfl
  · rw [decode_error_eq refused]
    exact consistent_halted consistent rfl id rfl ⟨nofun, nofun⟩ rfl
  · exact consistent_of_ending consistent running (exec_ending executed)

/-- The launch state: running at pc 0 with a clear record, over a loaded image, which is canonical. -/
theorem consistent_boot (limit : Option Nat) (file : List Byte) : Consistent (State.boot limit file) :=
  { pcEven := rfl, memoryCanonical := loadFrom_wf file 0, runningClear := fun _ => rfl, haltedSays := nofun }

theorem boot_none_nil : State.boot none [] = State.reset := rfl

/-- Settles O37: reset is the launch without a file or a limit. -/
theorem resetIsConsistent : Obligations.ResetIsConsistent := by
  rw [Obligations.ResetIsConsistent, ← boot_none_nil]
  exact consistent_boot none []

/-- Settles O39: the launch state is the reset state with memory and limit put in. -/
theorem bootIsConsistent : Obligations.BootIsConsistent :=
  ⟨fun limit file => ⟨consistent_boot limit file, rfl, rfl⟩, boot_none_nil⟩

/-- Settles O40: the reset state is a literal, read in each register. -/
theorem resetValues : Obligations.ResetValues :=
  ⟨fun r => by cases r <;> rfl, rfl, fun _ => rfl, rfl, rfl, rfl, rfl⟩

end Sys2Proof.Machine
end

section
/-! PROOFS. Canonical memories (log 12): two that read alike are the same list, and admitted writes keep the form. -/

namespace Sys2Proof.Machine

/-- What a canonical list with a first cell is: the cell, and the rest canonical above it. -/
theorem Memory.wfFrom_cons {low k : Nat} {b : Byte} {m : Memory} (canonical : Memory.wfFrom low ((k, b) :: m) = true) :
    low ≤ k ∧ b ≠ Config.unlistedByte ∧ m.wfFrom (k + 1) = true := by
  simp only [Memory.wfFrom, Bool.and_eq_true, decide_eq_true_eq] at canonical
  obtain ⟨⟨⟨above, -⟩, listed⟩, rest⟩ := canonical
  exact ⟨above, listed, rest⟩

theorem Memory.read_cons_same (k : Nat) (b : Byte) (m : Memory) : Memory.read ((k, b) :: m) k = b := if_pos rfl

theorem Memory.read_cons_other {k a : Nat} (b : Byte) (m : Memory) (other : k ≠ a) :
    Memory.read ((k, b) :: m) a = m.read a := if_neg other

/-- The first address of a canonical list reads as no unlisted byte does. -/
theorem Memory.first_le_of_reads_alike {low k k' : Nat} {b b' : Byte} {m m' : Memory}
    (canonical : Memory.wfFrom low ((k, b) :: m) = true) (canonical' : Memory.wfFrom low ((k', b') :: m') = true)
    (alike : Memory.read ((k, b) :: m) k = Memory.read ((k', b') :: m') k) : k' ≤ k := by
  obtain ⟨-, listed, -⟩ := Memory.wfFrom_cons canonical
  obtain ⟨-, -, rest'⟩ := Memory.wfFrom_cons canonical'
  by_contra below
  rw [Memory.read_cons_same, Memory.read_cons_other b' m' (by omega), Memory.read_below rest' (by omega)] at alike
  exact listed alike

theorem Memory.eq_of_reads_alike {m m' : Memory} {low : Nat} (canonical : m.wfFrom low = true)
    (canonical' : m'.wfFrom low = true) (alike : ∀ a, m.read a = m'.read a) : m = m' := by
  induction m generalizing m' low with
  | nil =>
    cases m' with
    | nil => rfl
    | cons c' m' =>
      obtain ⟨-, listed, -⟩ := Memory.wfFrom_cons canonical'
      exact absurd ((alike c'.1).trans (Memory.read_cons_same c'.1 c'.2 m')).symm listed
  | cons c m ih =>
    cases m' with
    | nil =>
      obtain ⟨-, listed, -⟩ := Memory.wfFrom_cons canonical
      exact absurd ((Memory.read_cons_same c.1 c.2 m).symm.trans (alike c.1)) listed
    | cons c' m' =>
      obtain ⟨k, b⟩ := c
      obtain ⟨k', b'⟩ := c'
      obtain rfl : k = k' := Nat.le_antisymm (Memory.first_le_of_reads_alike canonical' canonical (alike k').symm)
        (Memory.first_le_of_reads_alike canonical canonical' (alike k))
      obtain rfl : b = b' := by simpa only [Memory.read_cons_same] using alike k
      obtain ⟨-, -, rest⟩ := Memory.wfFrom_cons canonical
      obtain ⟨-, -, rest'⟩ := Memory.wfFrom_cons canonical'
      refine congrArg _ (ih rest rest' fun a => ?_)
      by_cases first : k = a
      · subst first
        rw [Memory.read_below rest (by omega), Memory.read_below rest' (by omega)]
      · simpa only [Memory.read_cons_other b _ first] using alike a

theorem Memory.wf_of_write1 {m m' : Memory} {a : Int} {b : Byte} (written : m.write1 a b = some m')
    (canonical : m.wf = true) : m'.wf = true := by
  obtain ⟨-, -, -, keeps⟩ := Memory.write1_spec written
  exact keeps canonical

theorem Memory.wf_of_write2 {m m' : Memory} {a : Int} {v : Word} (written : m.write2 a v = some m')
    (canonical : m.wf = true) : m'.wf = true := by
  obtain ⟨-, -, -, -, keeps⟩ := Memory.write2_spec written
  exact keeps canonical

/-- Settles O48: such lists agree cell by cell, and an admitted write is one or two single writes inside memory. -/
theorem canonicalMemoriesAreEqual : Obligations.CanonicalMemoriesAreEqual :=
  ⟨fun _ _ => Memory.eq_of_reads_alike, fun _ _ _ _ canonical written => Memory.wf_of_write2 written canonical,
   fun _ _ _ _ canonical written => Memory.wf_of_write1 written canonical⟩

end Sys2Proof.Machine
end

section
/-! PROOFS. What an instruction does, as data: the one change it makes and the way it ends. The change and the ending are
fixed by pc, memory and the instruction's sources; which of them an instruction may have is read off its tables
`destination` and `continueTarget` (10_state.md R20; 40_execution_cycle.md R91 to R94). -/

namespace Sys2Proof.Machine

open Sys2Proof.Safety

/-- The change an instruction makes before its commit. -/
inductive Change where
  | nothing
  | register (r : Reg) (v : Word)
  | memory (m : Memory)
  | events (es : List Event)

def Change.apply : Change → State → State
  | .nothing, s => s
  | .register r v, s => s.setReg r v
  | .memory m, s => { s with mem := m }
  | .events es, s => s.emit es

/-- The change, if any, and how the instruction ends: it goes on to a target, halts, or fails an access of `n` bytes
at `ea` after emitting `es`. -/
inductive Action where
  | goOn (change : Change) (target : Int)
  | halt
  | fail (es : List Event) (ea : Int) (n : Nat)

def Action.perform : Action → State → State
  | .goOn change target, s => commitContinue s (change.apply s) target
  | .halt, s => commitHalt s
  | .fail es ea n, s => commitOutOfBounds s (s.emit es) ea n

/-- The instruction stores to memory. -/
def IsStore (i : Instr) : Prop := (∃ r b off, i = .sb r b off) ∨ (∃ r b off, i = .sw r b off)

/-- The changes an instruction may make: its destination, memory if it is a store, an event if it is a system call. -/
def Change.Allowed (i : Instr) (s : State) : Change → Prop
  | .nothing => True
  | .register r _ => destination i = some r
  | .memory m => IsStore i ∧ (s.mem.wf = true → m.wf = true)
  | .events es => es ≠ [] → isSystemCall i = true

/-- The actions an instruction may take in a state: its target is the one the rules give it (`ecall 5` has no other than
`pc + 2`), only `ecall 3` halts, and only an instruction without a target fails. -/
def Action.Allowed (i : Instr) (s : State) : Action → Prop
  | .goOn change target => change.Allowed i s ∧
      (continueTarget s i = some target ∨ (i = .ecallPrintString ∧ target = s.pc.toNat + 2))
  | .halt => i = .ecallHalt
  | .fail es _ _ => i ≠ .ecallHalt ∧ continueTarget s i = none ∧ (es = [] ∨ i = .ecallPrintString)

/-- The states agree in all that the instruction reads. -/
structure AgreeOnReads (i : Instr) (s s' : State) : Prop where
  pc : s'.pc = s.pc
  mem : s'.mem = s.mem
  reg : ∀ r ∈ sources i, s'.reg r = s.reg r

theorem AgreeOnReads.refl (i : Instr) (s : State) : AgreeOnReads i s s := ⟨rfl, rfl, fun _ _ => rfl⟩

/-- The instruction takes this action in the state, and in every state that agrees with it on what it reads. -/
structure Takes (i : Instr) (s : State) (a : Action) : Prop where
  allowed : a.Allowed i s
  performs : ∀ s', AgreeOnReads i s s' → exec i s' = .next (a.perform s')

/-! ### One lemma for each shared form -/

theorem takes_registerOp {i : Instr} {op : Word → Word → Word} {rd rs2 : Reg} (s : State)
    (reads : sources i = [rd, rs2]) (writes : destination i = some rd)
    (goes : continueTarget s i = some ((s.pc.toNat : Int) + 2))
    (executes : ∀ s, exec i s = .next (registerOp op rd rs2 s)) : ∃ a, Takes i s a := by
  refine ⟨.goOn (.register rd (op (s.reg rd) (s.reg rs2))) (s.pc.toNat + 2), ⟨writes, .inl goes⟩, fun s' agree => ?_⟩
  rw [executes, registerOp_eq, agree.reg rd (by simp [reads]), agree.reg rs2 (by simp [reads]), agree.pc]
  rfl

theorem takes_immediateOp {i : Instr} {f : Word → Word} {rd : Reg} (s : State)
    (reads : sources i = [rd]) (writes : destination i = some rd)
    (goes : continueTarget s i = some ((s.pc.toNat : Int) + 2))
    (executes : ∀ s, exec i s = .next (immediateOp f rd s)) : ∃ a, Takes i s a := by
  refine ⟨.goOn (.register rd (f (s.reg rd))) (s.pc.toNat + 2), ⟨writes, .inl goes⟩, fun s' agree => ?_⟩
  rw [executes, immediateOp_eq, agree.reg rd (by simp [reads]), agree.pc]
  rfl

theorem takes_branchOn {i : Instr} {test : Word → Word → Bool} {rs1 rs2 : Reg} {offset4 : BitVec 4} {s : State}
    (reads : sources i = [rs1, rs2])
    (goes : continueTarget s i =
      some (if test (s.reg rs1) (s.reg rs2) = true then s.pc.toNat + 2 * offset4.toInt else s.pc.toNat + 2))
    (executes : ∀ s, exec i s = .next (branchOn test rs1 rs2 offset4 s)) : ∃ a, Takes i s a := by
  refine ⟨.goOn .nothing _, ⟨trivial, .inl goes⟩, fun s' agree => ?_⟩
  rw [executes, branchOn, branchTarget_eq, agree.reg rs1 (by simp [reads]), agree.reg rs2 (by simp [reads]),
    State.sequentialPc, agree.pc]
  rfl

theorem AgreeOnReads.loadStoreAddress {i : Instr} {s s' : State} {rs1 : Reg} (agree : AgreeOnReads i s s')
    (reads : rs1 ∈ sources i) (offset4 : BitVec 4) : loadStoreAddress s' rs1 offset4 = loadStoreAddress s rs1 offset4 := by
  rw [Safety.loadStoreAddress, agree.reg rs1 reads]; rfl

theorem takes_load {i : Instr} {rd rs1 : Reg} {offset4 : BitVec 4} {n : Nat} {loaded : Memory → Int → Word} (s : State)
    (reads : sources i = [rs1]) (writes : destination i = some rd)
    (goes : continueTarget s i = afterAccess s rs1 offset4 n) (notHalt : i ≠ .ecallHalt)
    (admitted : ∀ s, Admitted (loadStoreAddress s rs1 offset4) n →
      exec i s = .next (commitContinue s (s.setReg rd (loaded s.mem (loadStoreAddress s rs1 offset4))) (s.pc.toNat + 2)))
    (refused : ∀ s, ¬Admitted (loadStoreAddress s rs1 offset4) n →
      exec i s = .next (commitOutOfBounds s s (loadStoreAddress s rs1 offset4) n)) : ∃ a, Takes i s a := by
  have rs1Read : rs1 ∈ sources i := by simp [reads]
  by_cases inside : Admitted (loadStoreAddress s rs1 offset4) n
  · refine ⟨.goOn (.register rd (loaded s.mem (loadStoreAddress s rs1 offset4))) (s.pc.toNat + 2),
      ⟨writes, .inl (goes.trans (if_pos inside))⟩, fun s' agree => ?_⟩
    have sameAddress := agree.loadStoreAddress rs1Read offset4
    rw [admitted s' (sameAddress ▸ inside), sameAddress, agree.mem, agree.pc]
    rfl
  · refine ⟨.fail [] (loadStoreAddress s rs1 offset4) n,
      ⟨notHalt, goes.trans (if_neg inside), .inl rfl⟩, fun s' agree => ?_⟩
    have sameAddress := agree.loadStoreAddress rs1Read offset4
    rw [refused s' (sameAddress ▸ inside), sameAddress, Action.perform, State.emit, List.append_nil]

theorem takes_store {i : Instr} {rs2 rs1 : Reg} {offset4 : BitVec 4} {n : Nat}
    {write : Memory → Int → Word → Option Memory} (s : State)
    (reads : sources i = [rs1, rs2]) (stores : IsStore i)
    (goes : continueTarget s i = afterAccess s rs1 offset4 n) (notHalt : i ≠ .ecallHalt)
    (canonical : ∀ {m m' : Memory} {ea : Int} {v : Word}, write m ea v = some m' → m.wf = true → m'.wf = true)
    (admitted : ∀ s, Admitted (loadStoreAddress s rs1 offset4) n →
      ∃ m, write s.mem (loadStoreAddress s rs1 offset4) (s.reg rs2) = some m ∧
        exec i s = .next (commitContinue s { s with mem := m } (s.pc.toNat + 2)))
    (refused : ∀ s, ¬Admitted (loadStoreAddress s rs1 offset4) n →
      exec i s = .next (commitOutOfBounds s s (loadStoreAddress s rs1 offset4) n)) : ∃ a, Takes i s a := by
  have rs1Read : rs1 ∈ sources i := by simp [reads]
  have rs2Read : rs2 ∈ sources i := by simp [reads]
  by_cases inside : Admitted (loadStoreAddress s rs1 offset4) n
  · obtain ⟨m, written, -⟩ := admitted s inside
    refine ⟨.goOn (.memory m) (s.pc.toNat + 2),
      ⟨⟨stores, canonical written⟩, .inl (goes.trans (if_pos inside))⟩, fun s' agree => ?_⟩
    have sameAddress := agree.loadStoreAddress rs1Read offset4
    obtain ⟨m', written', executes⟩ := admitted s' (sameAddress ▸ inside)
    rw [sameAddress, agree.mem, agree.reg rs2 rs2Read, written] at written'
    cases written'
    rw [executes, Action.perform, Change.apply, agree.pc]
  · refine ⟨.fail [] (loadStoreAddress s rs1 offset4) n,
      ⟨notHalt, goes.trans (if_neg inside), .inl rfl⟩, fun s' agree => ?_⟩
    have sameAddress := agree.loadStoreAddress rs1Read offset4
    rw [refused s' (sameAddress ▸ inside), sameAddress, Action.perform, State.emit, List.append_nil]

theorem takes_emit {i : Instr} {es : State → List Event} (s : State) (calls : isSystemCall i = true)
    (goes : continueTarget s i = some ((s.pc.toNat : Int) + 2))
    (same : ∀ s', AgreeOnReads i s s' → es s' = es s)
    (executes : ∀ s, exec i s = .next (commitNext s (s.emit (es s)))) : ∃ a, Takes i s a := by
  refine ⟨.goOn (.events (es s)) (s.pc.toNat + 2), ⟨fun _ => calls, .inl goes⟩, fun s' agree => ?_⟩
  rw [executes, same s' agree, commitNext_eq, agree.pc]
  rfl

theorem takes_printString (s : State) : ∃ a, Takes .ecallPrintString s a := by
  have sameString : ∀ s', AgreeOnReads .ecallPrintString s s' → stringAtEcallReg s' = stringAtEcallReg s := by
    intro s' agree
    rw [stringAtEcallReg, agree.reg ecallReg (by decide), agree.mem]
    rfl
  cases found : (stringAtEcallReg s).2 with
  | true =>
    refine ⟨.goOn (.events ((stringAtEcallReg s).1.map .printByte)) (s.pc.toNat + 2),
      ⟨fun _ => rfl, .inr ⟨rfl, rfl⟩⟩,
      fun s' agree => ?_⟩
    rw [exec, execEcallPrintString, sameString s' agree, if_pos found, commitNext_eq, agree.pc]
    rfl
  | false =>
    refine ⟨.fail ((stringAtEcallReg s).1.map .printByte) Config.memSize 1, ⟨nofun, rfl, .inr rfl⟩, fun s' agree => ?_⟩
    rw [exec, execEcallPrintString, sameString s' agree, found]
    rfl

theorem takes_byteLoad {i : Instr} {ext : Byte → Word} {rd rs1 : Reg} {offset4 : BitVec 4} (s : State)
    (reads : sources i = [rs1]) (writes : destination i = some rd)
    (goes : continueTarget s i = afterAccess s rs1 offset4 1) (notHalt : i ≠ .ecallHalt)
    (executes : ∀ s, exec i s = .next (loadByte ext rd rs1 offset4 s)) : ∃ a, Takes i s a :=
  takes_load (loaded := fun m ea => ext (m.read ea.toNat)) s reads writes goes notHalt
    (fun s inside => by rw [executes, loadByte_admitted ext rd rfl inside]; rfl)
    (fun s outside => by rw [executes, loadByte_out_of_bounds ext rd rfl outside]; rfl)

theorem takes_halfLoad {i : Instr} {rd rs1 : Reg} {offset4 : BitVec 4} (s : State)
    (reads : sources i = [rs1]) (writes : destination i = some rd)
    (goes : continueTarget s i = afterAccess s rs1 offset4 2) (notHalt : i ≠ .ecallHalt)
    (executes : ∀ s, exec i s = .next (loadHalf rd rs1 offset4 s)) : ∃ a, Takes i s a :=
  takes_load (loaded := fun m ea => m.read (ea.toNat + 1) ++ m.read ea.toNat) s reads writes goes notHalt
    (fun s inside => by rw [executes, loadHalf_admitted rd rfl inside]; rfl)
    (fun s outside => by rw [executes, loadHalf_out_of_bounds rd rfl outside]; rfl)

theorem takes_jal (rd : Reg) (offset13 : BitVec 13) (s : State) : ∃ a, Takes (.jal rd offset13) s a := by
  refine ⟨.goOn (.register rd (BitVec.ofNat 16 (s.pc.toNat + 2))) (s.pc.toNat + 2 * offset13.toInt),
    ⟨rfl, .inl rfl⟩, fun s' agree => ?_⟩
  rw [exec_jal, linkAndGo_eq, agree.pc]
  rfl

theorem exec_jalr (rd rs1 : Reg) (offset7 : BitVec 7) (s : State) :
    exec (.jalr rd rs1 offset7) s = .next (linkAndGo rd (jalrGoal s rs1 offset7) s) := by
  rw [jalrGoal, ← jalrTarget_eq]; rfl

theorem takes_jalr (rd rs1 : Reg) (offset7 : BitVec 7) (s : State) : ∃ a, Takes (.jalr rd rs1 offset7) s a := by
  refine ⟨.goOn (.register rd (BitVec.ofNat 16 (s.pc.toNat + 2))) (jalrGoal s rs1 offset7),
    ⟨rfl, .inl rfl⟩, fun s' agree => ?_⟩
  rw [exec_jalr, linkAndGo_eq, jalrGoal, agree.reg rs1 (by simp [sources]), agree.pc]
  rfl

theorem exec_lui (rd : Reg) (imm12 : BitVec 12) (s : State) :
    exec (.lui rd imm12) s = .next (commitContinue s (s.setReg rd (upperImmediate imm12)) (s.pc.toNat + 2)) := rfl

theorem takes_lui (rd : Reg) (imm12 : BitVec 12) (s : State) : ∃ a, Takes (.lui rd imm12) s a := by
  refine ⟨.goOn (.register rd (upperImmediate imm12)) (s.pc.toNat + 2), ⟨rfl, .inl rfl⟩, fun s' agree => ?_⟩
  rw [exec_lui, agree.pc]
  rfl

/-- Every instruction takes an allowed action, in every state. -/
theorem exists_takes (i : Instr) (s : State) : ∃ a, Takes i s a := by
  cases i
  case add => exact takes_registerOp s rfl rfl rfl fun _ => rfl
  case sub => exact takes_registerOp s rfl rfl rfl fun _ => rfl
  case and => exact takes_registerOp s rfl rfl rfl fun _ => rfl
  case or => exact takes_registerOp s rfl rfl rfl fun _ => rfl
  case xor => exact takes_registerOp s rfl rfl rfl fun _ => rfl
  case sll => exact takes_registerOp s rfl rfl rfl fun _ => rfl
  case srl => exact takes_registerOp s rfl rfl rfl fun _ => rfl
  case sra => exact takes_registerOp s rfl rfl rfl fun _ => rfl
  case slt => exact takes_registerOp s rfl rfl rfl fun _ => rfl
  case sltu => exact takes_registerOp s rfl rfl rfl fun _ => rfl
  case addi => exact takes_immediateOp s rfl rfl rfl fun _ => rfl
  case andi => exact takes_immediateOp s rfl rfl rfl fun _ => rfl
  case ori => exact takes_immediateOp s rfl rfl rfl fun _ => rfl
  case xori => exact takes_immediateOp s rfl rfl rfl fun _ => rfl
  case slli => exact takes_immediateOp s rfl rfl rfl fun _ => rfl
  case srli => exact takes_immediateOp s rfl rfl rfl fun _ => rfl
  case srai => exact takes_immediateOp s rfl rfl rfl fun _ => rfl
  case slti => exact takes_immediateOp s rfl rfl rfl fun _ => rfl
  case beq => exact takes_branchOn rfl (by simp [continueTarget]) fun _ => rfl
  case bne => exact takes_branchOn rfl (by simp [continueTarget]) fun _ => rfl
  case blt => exact takes_branchOn rfl (by simp [continueTarget, signedLess]) fun _ => rfl
  case bge => exact takes_branchOn rfl (by
    simp only [continueTarget, signedLess, Bool.not_eq_true', decide_eq_false_iff_not, ite_not]) fun _ => rfl
  case bltu => exact takes_branchOn rfl (by simp [continueTarget, unsignedLess]) fun _ => rfl
  case bgeu => exact takes_branchOn rfl (by
    simp only [continueTarget, unsignedLess, Bool.not_eq_true', decide_eq_false_iff_not, ite_not]) fun _ => rfl
  case sb rs2 rs1 offset4 =>
    exact takes_store (write := fun m ea v => m.write1 ea (lowByte v)) s rfl (.inl ⟨_, _, _, rfl⟩) rfl nofun
      Memory.wf_of_write1
      (fun _ => execSb_admitted rs2 rfl) (fun _ => execSb_out_of_bounds rs2 rfl)
  case sw rs2 rs1 offset4 =>
    exact takes_store (write := Memory.write2) s rfl (.inr ⟨_, _, _, rfl⟩) rfl nofun
      Memory.wf_of_write2
      (fun _ => execSw_admitted rs2 rfl) (fun _ => execSw_out_of_bounds rs2 rfl)
  case lb => exact takes_byteLoad s rfl rfl rfl nofun fun _ => rfl
  case lw => exact takes_halfLoad s rfl rfl rfl nofun fun _ => rfl
  case lbu => exact takes_byteLoad s rfl rfl rfl nofun fun _ => rfl
  case lwu => exact takes_halfLoad s rfl rfl rfl nofun fun _ => rfl
  case jal rd offset13 => exact takes_jal rd offset13 s
  case jalr rd rs1 offset7 => exact takes_jalr rd rs1 offset7 s
  case lui rd imm12 => exact takes_lui rd imm12 s
  case ecallPrintInt =>
    exact takes_emit (es := fun s => [.printInt (s.reg ecallReg)]) s rfl rfl
      (fun s' agree => by rw [agree.reg ecallReg (by decide)]) fun _ => rfl
  case ecallHalt => exact ⟨.halt, rfl, fun _ _ => rfl⟩
  case ecallPrintString => exact takes_printString s
  case ecallUnknown0 => exact takes_emit (es := fun _ => [.diag 0#3]) s rfl rfl (fun _ _ => rfl) fun _ => rfl
  case ecallUnknown2 => exact takes_emit (es := fun _ => [.diag 2#3]) s rfl rfl (fun _ _ => rfl) fun _ => rfl
  case ecallUnknown4 => exact takes_emit (es := fun _ => [.diag 4#3]) s rfl rfl (fun _ _ => rfl) fun _ => rfl
  case ecallUnknown6 => exact takes_emit (es := fun _ => [.diag 6#3]) s rfl rfl (fun _ _ => rfl) fun _ => rfl
  case ecallUnknown7 => exact takes_emit (es := fun _ => [.diag 7#3]) s rfl rfl (fun _ _ => rfl) fun _ => rfl

end Sys2Proof.Machine
end

section
/-! PROOFS. What a change and an action leave in each field of the state, and which registers and memory an instruction
writes (10_state.md R20). -/

namespace Sys2Proof.Machine

open Sys2Proof.Safety

/-- The events a change adds to the output. -/
def Change.emitted : Change → List Event
  | .events es => es
  | _ => []

theorem Change.apply_out (c : Change) (s : State) : (c.apply s).out = s.out ++ c.emitted := by
  cases c with
  | events es => rfl
  | nothing | register | memory => exact (List.append_nil _).symm

theorem Change.emitted_allowed {i : Instr} {s : State} {c : Change} (allowed : c.Allowed i s) (emits : c.emitted ≠ []) :
    isSystemCall i = true := by
  cases c with
  | events es => exact allowed emits
  | nothing | register | memory => exact absurd rfl emits

theorem Change.effect {i : Instr} {s : State} {c : Change} (allowed : c.Allowed i s) : Effect s (c.apply s) := by
  cases c with
  | nothing => exact .refl s
  | register r v => exact .setReg s r v
  | memory m => exact .store s m allowed.2
  | events es => exact .emit s es

theorem Change.apply_reg_of_not_destination {i : Instr} {s : State} {c : Change} (allowed : c.Allowed i s) {r : Reg}
    (other : destination i ≠ some r) : (c.apply s).reg r = s.reg r := by
  cases c with
  | register q v => exact State.reg_setReg_other s v fun same => other (same ▸ allowed)
  | nothing | memory | events => rfl

theorem Change.apply_mem_of_not_store {i : Instr} {s : State} {c : Change} (allowed : c.Allowed i s)
    (other : ¬IsStore i) : (c.apply s).mem = s.mem := by
  cases c with
  | memory m => exact absurd allowed.1 other
  | nothing | register | events => rfl

/-- The change an action makes before its commit. -/
def Action.change : Action → Change
  | .goOn change _ => change
  | .halt => .nothing
  | .fail es _ _ => .events es

theorem Action.change_allowed {i : Instr} {s : State} {a : Action} (allowed : a.Allowed i s) : a.change.Allowed i s := by
  cases a with
  | goOn => exact allowed.1
  | halt => trivial
  | fail es ea n =>
    obtain ⟨-, -, silent | isPrintString⟩ := allowed
    · exact fun emits => absurd silent emits
    · exact fun _ => isPrintString ▸ rfl

theorem Action.perform_regs (a : Action) (s : State) : (a.perform s).regs = (a.change.apply s).regs := by
  cases a with
  | goOn => exact commitContinue_regs s _ _
  | halt | fail => rfl

theorem Action.perform_reg (a : Action) (s : State) (r : Reg) : (a.perform s).reg r = (a.change.apply s).reg r :=
  congrArg (fun g : Regs => g.read r) (a.perform_regs s)

theorem Action.perform_mem (a : Action) (s : State) : (a.perform s).mem = (a.change.apply s).mem := by
  cases a with
  | goOn => exact commitContinue_mem s _ _
  | halt | fail => rfl

theorem Action.perform_out (a : Action) (s : State) : (a.perform s).out = s.out ++ a.change.emitted := by
  rw [← Change.apply_out]
  cases a with
  | goOn => exact commitContinue_out s _ _
  | halt | fail => rfl

theorem Action.perform_stepLimit (a : Action) (s : State) : (a.perform s).stepLimit = s.stepLimit := by
  cases a with
  | goOn => exact commitContinue_stepLimit s _ _
  | halt | fail => rfl

/-- An instruction that answers a next state got there by an action allowed to it. -/
theorem exec_eq_perform {i : Instr} {s t : State} (executed : exec i s = .next t) :
    ∃ a : Action, a.Allowed i s ∧ t = a.perform s := by
  obtain ⟨a, takes⟩ := exists_takes i s
  have performed := takes.performs s (.refl i s)
  rw [executed] at performed
  cases performed
  exact ⟨a, takes.allowed, rfl⟩

/-- Settles O42: an instruction makes one change, to its destination, to memory if it is a store, or to the output. -/
theorem writesOnlyItsDestination : Obligations.WritesOnlyItsDestination := by
  intro i s t executed
  obtain ⟨a, allowed, rfl⟩ := exec_eq_perform executed
  refine ⟨fun r other => ?_, fun notSb notSw => ?_⟩
  · rw [a.perform_reg]
    exact Change.apply_reg_of_not_destination (Action.change_allowed allowed) other
  · rw [a.perform_mem]
    refine Change.apply_mem_of_not_store (Action.change_allowed allowed) ?_
    rintro (⟨r, b, off, isSb⟩ | ⟨r, b, off, isSw⟩)
    · exact notSb r b off isSb
    · exact notSw r b off isSw

/-! ### The commit of a target (R91, R92) -/

theorem commitContinue_committed {s after : State} (target : Int) (effect : Effect s after) :
    Committed target s (commitContinue s after target) := by
  refine ⟨commitContinue_ceiling s after target, fun inside => commitContinue_goesTo target effect inside.1 inside.2,
    fun outside => ?_⟩
  rw [commitContinue_outside s after outside]
  exact ⟨effect.pc, rfl, rfl⟩

/-- Settles O28: only going on is allowed to an instruction with a target, and only to that target. -/
theorem everyTargetIsTakenOrEndsTheRun : Obligations.EveryTargetIsTakenOrEndsTheRun := by
  intro i s target goes
  obtain ⟨a, allowed, performs⟩ := exists_takes i s
  refine ⟨a.perform s, performs s (.refl i s), ?_⟩
  cases a with
  | goOn change target' =>
    obtain ⟨changeAllowed, sameTarget | ⟨rfl, -⟩⟩ := allowed
    · obtain rfl : target' = target := Option.some.inj (sameTarget.symm.trans goes)
      exact commitContinue_committed target' (Change.effect changeAllowed)
    · cases goes
  | halt =>
    obtain rfl : i = .ecallHalt := allowed
    cases goes
  | fail =>
    obtain ⟨-, noTarget, -⟩ := allowed
    rw [goes] at noTarget
    cases noTarget

end Sys2Proof.Machine
end

section
/-! PROOFS. The step, case by case as the checks of 60_exceptions.md R158 fall: when there is one (R87), at the limit (R88),
at a failed fetch (R89), and for a state that can fetch. -/

namespace Sys2Proof.Machine

open Sys2Proof.Safety

theorem cycle_of_limit {dec : Word → DecodeResult} {s : State} (running : s.run = .running)
    (reached : s.limitReached = true) : cycle dec s = .next (haltAtLimit s) := by
  simp [cycle, running, reached]

theorem cycle_of_fetch_none {dec : Word → DecodeResult} {s : State} (running : s.run = .running)
    (below : s.limitReached = false) (unfetched : s.fetch = none) : cycle dec s = .next (haltAtFetch s) := by
  simp [cycle, fetchAndRun, running, below, unfetched]

theorem step_of_not_below {s : State} (running : s.run = .running) (above : ¬BelowLimit s) :
    step s = .next (haltAtLimit s) := by
  rw [← limitReached_eq_false_iff, Bool.not_eq_false] at above
  exact cycle_of_limit running above

/-- Settles O31: the limit's check comes first, and its halt writes only the run state and the record. -/
theorem stepLimitStopsBeforeFetch : Obligations.StepLimitStopsBeforeFetch :=
  fun s c running limited reached => cycle_of_limit running ((limitReached_iff s).mpr ⟨c, limited, reached⟩)

theorem step_of_outside {s : State} (running : s.run = .running) (below : BelowLimit s)
    (outside : ¬s.pc.toNat + 2 ≤ 65536) : step s = .next (haltAtFetch s) :=
  cycle_of_fetch_none running (limitReached_eq_false_iff.mpr below) (fetch_eq_none.mpr outside)

/-- Settles O33: the second byte of a word at 0xFFFF lies outside memory. -/
theorem fetchAtLastByteHalts : Obligations.FetchAtLastByteHalts := by
  intro s running below atTop
  have pc : s.pc.toNat = 65535 := by rw [atTop]; rfl
  refine ⟨_, step_of_outside running below (by omega), State.haltWith_run s _, rfl, rfl, ?_, rfl,
    State.haltWith_reg s _, fun _ => rfl, State.haltWith_pc s _, State.haltWith_out s _, State.haltWith_stepLimit s _⟩
  exact congrArg Nat.cast pc

/-- Settles O29: past the three checks of the cycle nothing is left but `exec`. -/
theorem stepRunsTheDecodedInstruction : Obligations.StepRunsTheDecodedInstruction :=
  fun _s _i ready decoded =>
    cycle_of_decode ready.running (limitReached_eq_false_iff.mpr ready.belowLimit) (fetch_of_inside ready.pcInside) decoded

/-- A state that can fetch halts on an illegal word, or runs what its word decodes to. -/
theorem step_cases_of_canFetch {s t : State} (ready : CanFetch s) (stepped : step s = .next t) :
    (IllegalWord (wordAt s.mem s.pc.toNat) ∧ t = haltAtDecode (.unknownFunct (wordAt s.mem s.pc.toNat)) s) ∨
    ∃ i, decode (wordAt s.mem s.pc.toNat) = .ok i ∧ exec i s = .next t := by
  obtain ⟨illegal, refused⟩ | ⟨-, i, decoded⟩ := decode_answersByLegality (wordAt s.mem s.pc.toNat)
  · rw [step_of_decode_error ready refused] at stepped
    cases stepped
    exact .inl ⟨illegal, rfl⟩
  · exact .inr ⟨i, decoded, (stepRunsTheDecodedInstruction s i ready decoded).symm.trans stepped⟩

theorem exists_step {s : State} (running : s.run = .running) : ∃ t, step s = .next t := by
  by_cases below : BelowLimit s
  · by_cases inside : s.pc.toNat + 2 ≤ 65536
    · have ready : CanFetch s := ⟨running, below, inside⟩
      cases answer : decode (wordAt s.mem s.pc.toNat) with
      | error e => exact ⟨_, step_of_decode_error ready answer⟩
      | ok i =>
        rw [stepRunsTheDecodedInstruction s i ready answer]
        exact exec_next i s
    · exact ⟨_, step_of_outside running below inside⟩
  · exact ⟨_, step_of_not_below running below⟩

/-- Settles O30: each check of a running core's step has a next state on both sides, and a halted core fails the first. -/
theorem stepEnabledExactlyWhileRunning : Obligations.StepEnabledExactlyWhileRunning := by
  refine fun s => ⟨fun ⟨t, stepped⟩ => ?_, exists_step⟩
  obtain ⟨running, -⟩ := step_cases stepped
  exact running

/-! ### What a step emits, and how it halts -/

/-- Settles O41: an action appends what its change emits, and only a system call's change emits anything. -/
theorem onlySystemCallsEmit : Obligations.OnlySystemCallsEmit := by
  intro s t ready stepped
  obtain ⟨-, rfl⟩ | ⟨i, decoded, executed⟩ := step_cases_of_canFetch ready stepped
  · exact ⟨rfl, [], (List.append_nil s.out).symm, fun emits => absurd rfl emits⟩
  · obtain ⟨a, allowed, rfl⟩ := exec_eq_perform executed
    exact ⟨a.perform_stepLimit s, a.change.emitted, a.perform_out s, fun emits =>
      ⟨i, decoded, Change.emitted_allowed (Action.change_allowed allowed) emits⟩⟩

/-- A running core that goes on to a target and is then halted has found it outside memory. -/
theorem commitContinue_halted {s after : State} {target : Int} (running : s.run = .running) (effect : Effect s after)
    (halted : (commitContinue s after target).run = .halted) :
    ¬(0 ≤ target ∧ target < 65536) ∧ (commitContinue s after target).halt.reason = .endOfMemory ∧
      (commitContinue s after target).halt.haltTarget = target := by
  have outside : ¬(0 ≤ target ∧ target < 65536) := by
    intro inside
    rw [commitContinue_run_inside s after inside, effect.run, running] at halted
    cases halted
  rw [commitContinue_outside s after outside]
  exact ⟨outside, rfl, rfl⟩

/-- Settles O34: the limit, the illegal word, and the three ways an action can halt are the five causes. -/
theorem haltReasonNamesItsCause : Obligations.HaltReasonNamesItsCause := by
  intro s t running inside stepped halted
  by_cases below : BelowLimit s
  · refine .inr ?_
    obtain ⟨illegal, rfl⟩ | ⟨i, decoded, executed⟩ := step_cases_of_canFetch ⟨running, below, inside⟩ stepped
    · exact .inl ⟨rfl, below, illegal⟩
    refine .inr ?_
    obtain ⟨a, allowed, rfl⟩ := exec_eq_perform executed
    cases a with
    | halt => exact .inl ⟨rfl, below, (show i = .ecallHalt from allowed) ▸ decoded⟩
    | fail es ea n =>
      obtain ⟨notHalt, noTarget, -⟩ := allowed
      exact .inr (.inl ⟨rfl, below, i, decoded, notHalt, noTarget⟩)
    | goOn change target =>
      obtain ⟨changeAllowed, goes⟩ := allowed
      obtain ⟨outside, reason, recorded⟩ := commitContinue_halted running (Change.effect changeAllowed) halted
      refine .inr (.inr ⟨reason, below, ?_, i, decoded, ?_⟩)
      · rw [Action.perform, recorded]; exact outside
      · rw [Action.perform, recorded]
        exact goes.imp_right fun ⟨isPrintString, next⟩ => ⟨isPrintString, by omega⟩
  · rw [step_of_not_below running below] at stepped
    cases stepped
    exact .inl ⟨rfl, below⟩

/-- Settles O35: of the ways to halt only the refused word and the failed access record a fault, and neither changes
more than the output. -/
theorem faultsArePrecise : Obligations.FaultsArePrecise := by
  intro s t ready stepped halted fault
  obtain ⟨-, rfl⟩ | ⟨i, decoded, executed⟩ := step_cases_of_canFetch ready stepped
  · exact ⟨rfl, rfl, rfl, rfl, rfl, rfl, rfl, fun _ => rfl⟩
  obtain ⟨a, allowed, rfl⟩ := exec_eq_perform executed
  cases a with
  | halt => obtain isFault | isFault := fault <;> cases isFault
  | fail es ea n =>
    obtain ⟨-, -, silent | isPrintString⟩ := allowed
    · exact ⟨rfl, rfl, rfl, rfl, rfl, rfl, rfl, fun _ => by rw [silent]; exact List.append_nil s.out⟩
    · exact ⟨rfl, rfl, rfl, rfl, rfl, rfl, rfl, fun other => absurd (isPrintString ▸ decoded) other⟩
  | goOn change target =>
    obtain ⟨-, reason, -⟩ := commitContinue_halted ready.running (Change.effect allowed.1) halted
    rw [Action.perform, reason] at fault
    obtain isFault | isFault := fault <;> cases isFault

end Sys2Proof.Machine
end

section
/-! PROOFS. Noninterference: what one action does in two states alike in pc, memory and run state. Changing a register
that the instruction does not read, or the output, the counter and the record, changes nothing else (10_state.md R20, R27,
R28). -/

namespace Sys2Proof.Machine

open Sys2Proof.Safety

/-- Two states alike in pc, memory and run state. -/
structure Alike (s s' : State) : Prop where
  pc : s'.pc = s.pc
  mem : s'.mem = s.mem
  run : s'.run = s.run

theorem Alike.wordAtPc {s s' : State} (alike : Alike s s') : s'.wordAtPc = s.wordAtPc := by
  rw [State.wordAtPc, alike.mem, alike.pc]; rfl

theorem Alike.apply {s s' : State} (alike : Alike s s') (c : Change) : Alike (c.apply s) (c.apply s') := by
  cases c with
  | memory m => exact ⟨alike.pc, rfl, alike.run⟩
  | nothing | register | events => exact ⟨alike.pc, alike.mem, alike.run⟩

theorem Alike.commitContinue {after after' : State} (s s' : State) (alikeAfter : Alike after after')
    (target : Int) : Alike (commitContinue s after target) (commitContinue s' after' target) := by
  by_cases inside : 0 ≤ target ∧ target < 65536
  · rw [commitContinue_inside s after inside, commitContinue_inside s' after' inside]
    exact ⟨rfl, alikeAfter.mem, alikeAfter.run⟩
  · rw [commitContinue_outside s after inside, commitContinue_outside s' after' inside]
    exact ⟨alikeAfter.pc, alikeAfter.mem, rfl⟩

theorem Alike.perform {s s' : State} (alike : Alike s s') (a : Action) : Alike (a.perform s) (a.perform s') := by
  cases a with
  | goOn change target => exact (alike.apply change).commitContinue s s' target
  | halt => exact ⟨alike.pc, alike.mem, rfl⟩
  | fail => exact ⟨alike.pc, alike.mem, rfl⟩

theorem Change.apply_run (c : Change) (s : State) : (c.apply s).run = s.run := by cases c <;> rfl

theorem Change.apply_halt (c : Change) (s : State) : (c.apply s).halt = s.halt := by cases c <;> rfl

/-- An action leaves run state and record in both states, or halts both with the same record. -/
theorem Alike.perform_halt {s s' : State} (alike : Alike s s') (a : Action) :
    ((a.perform s).run = s.run ∧ (a.perform s).halt = s.halt ∧ (a.perform s').halt = s'.halt) ∨
      (a.perform s').halt = (a.perform s).halt := by
  cases a with
  | goOn change target =>
    by_cases inside : 0 ≤ target ∧ target < 65536
    · refine .inl ⟨?_, ?_, ?_⟩
      · rw [Action.perform, commitContinue_run_inside s _ inside, Change.apply_run]
      · rw [Action.perform, commitContinue_halt_inside s _ inside, Change.apply_halt]
      · rw [Action.perform, commitContinue_halt_inside s' _ inside, Change.apply_halt]
    · refine .inr ?_
      rw [Action.perform, Action.perform, commitContinue_outside s _ inside, commitContinue_outside s' _ inside,
        alike.pc, alike.wordAtPc]
  | halt =>
    rw [Action.perform, Action.perform, commitHalt_eq, commitHalt_eq, alike.pc, alike.wordAtPc]
    exact .inr rfl
  | fail es ea n =>
    rw [Action.perform, Action.perform, commitOutOfBounds_eq, commitOutOfBounds_eq, alike.pc, alike.wordAtPc]
    exact .inr rfl

theorem perform_ceiling_eq {s s' : State} (same : s'.ceiling = s.ceiling) (a : Action) :
    (a.perform s').ceiling = (a.perform s).ceiling := by
  cases a with
  | goOn => rw [Action.perform, Action.perform, commitContinue_ceiling, commitContinue_ceiling, same]
  | halt | fail => exact same

/-! ### A register that is not read -/

/-- Each register is left as the change found it, or is written with the same value whatever it held. -/
theorem Change.apply_reg_cases {i : Instr} {s : State} {c : Change} (allowed : c.Allowed i s) (r : Reg) :
    (∀ s', (c.apply s').reg r = s'.reg r) ∨
      (destination i = some r ∧ ∃ v, ∀ s', (c.apply s').reg r = v) := by
  cases c with
  | register q v =>
    by_cases same : r = q
    · subst same
      exact .inr ⟨allowed, v, fun s' => State.reg_setReg_same s' r v⟩
    · exact .inl fun s' => State.reg_setReg_other s' v same
  | nothing | memory | events => exact .inl fun _ => rfl

theorem agreeOnReads_setReg {i : Instr} {r : Reg} (s : State) (v : Word) (unread : r ∉ sources i) :
    AgreeOnReads i s (s.setReg r v) :=
  ⟨rfl, rfl, fun _ reads => State.reg_setReg_other s v fun same => unread (same ▸ reads)⟩

/-- Settles O43: the two states agree on what the instruction reads, so it takes one action in both. -/
theorem readsOnlyItsSources : Obligations.ReadsOnlyItsSources := by
  intro i s r v unread
  obtain ⟨a, allowed, performs⟩ := exists_takes i s
  have alike : Alike s (s.setReg r v) := ⟨rfl, rfl, rfl⟩
  have performedAlike := alike.perform a
  refine ⟨a.perform s, a.perform (s.setReg r v), performs s (.refl i s),
    performs _ (agreeOnReads_setReg s v unread), performedAlike.pc, performedAlike.mem, performedAlike.run, ?_, ?_,
    perform_ceiling_eq (State.setReg_ceiling s r v) a, fun q other => ?_, ?_⟩
  · obtain ⟨-, stands, stands'⟩ | same := alike.perform_halt a
    · rw [stands, stands', State.setReg_halt]
    · exact same
  · rw [a.perform_out, a.perform_out, State.setReg_out]
  · rw [a.perform_reg, a.perform_reg]
    obtain kept | ⟨-, w, written⟩ := Change.apply_reg_cases (Action.change_allowed allowed) q
    · rw [kept, kept, State.reg_setReg_other s v other]
    · rw [written, written]
  · rw [a.perform_reg, a.perform_reg]
    obtain kept | ⟨isDestination, w, written⟩ := Change.apply_reg_cases (Action.change_allowed allowed) r
    · exact .inl ⟨kept s, by rw [kept, State.reg_setReg_same]⟩
    · exact .inr ⟨isDestination, by rw [written, written]⟩

/-! ### Output, step count and record -/

/-- The steps from `s` to `t` and from `s'` to `t'` come out alike: in what a program can observe, in the events they
emit, and in the record if they halt. -/
def ComesOutAlike (s s' t t' : State) : Prop :=
  ∃ es, SameProgramState t t' ∧ t.out = s.out ++ es ∧ t'.out = s'.out ++ es ∧ (t.run = .halted → t.halt = t'.halt)

theorem comesOutAlike_haltWith {s s' : State} (same : SameProgramState s s') (h : HaltRecord) :
    ComesOutAlike s s' (s.haltWith h) (s'.haltWith h) := by
  obtain ⟨regs, pc, mem, -⟩ := same
  exact ⟨[], ⟨regs, pc, mem, rfl⟩, (List.append_nil s.out).symm, (List.append_nil s'.out).symm, fun _ => rfl⟩

theorem Change.apply_regs_eq {s s' : State} (same : s.regs = s'.regs) (c : Change) :
    (c.apply s).regs = (c.apply s').regs := by
  cases c with
  | register r v => exact congrArg (fun g => g.write r v) same
  | nothing | memory | events => exact same

theorem comesOutAlike_perform {s s' : State} (running : s.run = .running) (same : SameProgramState s s') (a : Action) :
    ComesOutAlike s s' (a.perform s) (a.perform s') := by
  obtain ⟨regs, pc, mem, run⟩ := same
  have alike : Alike s s' := ⟨pc.symm, mem.symm, run.symm⟩
  have performedAlike := alike.perform a
  refine ⟨a.change.emitted, ⟨?_, performedAlike.pc.symm, performedAlike.mem.symm, performedAlike.run.symm⟩,
    a.perform_out s, a.perform_out s', fun halted => ?_⟩
  · rw [a.perform_regs, a.perform_regs]
    exact a.change.apply_regs_eq regs
  · obtain ⟨stands, -⟩ | sameRecord := alike.perform_halt a
    · rw [stands, running] at halted; cases halted
    · exact sameRecord.symm

theorem exec_comesOutAlike {i : Instr} {s s' t : State} (running : s.run = .running) (same : SameProgramState s s')
    (executed : exec i s = .next t) : ∃ t', exec i s' = .next t' ∧ ComesOutAlike s s' t t' := by
  obtain ⟨a, -, performs⟩ := exists_takes i s
  obtain ⟨regs, pc, mem, -⟩ := id same
  have agree : AgreeOnReads i s s' := ⟨pc.symm, mem.symm, fun r _ => congrArg (fun g : Regs => g.read r) regs.symm⟩
  rw [performs s (.refl i s)] at executed
  cases executed
  exact ⟨a.perform s', performs s' agree, comesOutAlike_perform running same a⟩

theorem step_comesOutAlike {s s' t : State} (running : s.run = .running) (same : SameProgramState s s')
    (below : BelowLimit s) (below' : BelowLimit s') (stepped : step s = .next t) :
    ∃ t', step s' = .next t' ∧ ComesOutAlike s s' t t' := by
  obtain ⟨-, pc, mem, run⟩ := id same
  have running' : s'.run = .running := run.symm.trans running
  by_cases inside : s.pc.toNat + 2 ≤ 65536
  · have ready : CanFetch s := ⟨running, below, inside⟩
    have ready' : CanFetch s' := ⟨running', below', pc ▸ inside⟩
    have sameWord : wordAt s'.mem s'.pc.toNat = wordAt s.mem s.pc.toNat := by rw [mem, pc]
    obtain ⟨illegal, rfl⟩ | ⟨i, decoded, executed⟩ := step_cases_of_canFetch ready stepped
    · refine ⟨_, step_of_decode_error ready' (sameWord ▸ (decode_eq_error_iff _).mpr illegal), ?_⟩
      rw [haltAtDecode_unknownFunct, haltAtDecode_unknownFunct, sameWord, ← pc]
      exact comesOutAlike_haltWith same _
    · rw [stepRunsTheDecodedInstruction s' i ready' (sameWord ▸ decoded)]
      exact exec_comesOutAlike running same executed
  · rw [step_of_outside running below inside] at stepped
    cases stepped
    refine ⟨_, step_of_outside running' below' (pc ▸ inside), ?_⟩
    rw [haltAtFetch, haltAtFetch, ← pc]
    exact comesOutAlike_haltWith same _

/-- Settles O44: both cores fetch the same word, and one action of its instruction comes out alike in both. -/
theorem outputAndBookkeepingAreNeverRead : Obligations.OutputAndBookkeepingAreNeverRead := by
  intro s s' t running same below below' stepped
  obtain ⟨t', stepped', es, alike⟩ := step_comesOutAlike running same below below' stepped
  exact ⟨t', es, stepped', alike⟩

end Sys2Proof.Machine
end

section
/-! PROOFS. Runs: a step limit ends each of them (40_execution_cycle.md R88, R92). -/

namespace Sys2Proof.Machine

open Sys2Proof.Safety

/-- A step after which the core still runs was below the limit, and is counted. -/
theorem step_counts {s t : State} {c : StepCeiling} (stepped : step s = .next t) (goesOn : t.run = .running)
    (limited : s.ceiling = some c) : c.steps < c.limit ∧ t.ceiling = some c.count := by
  obtain ⟨-, ⟨-, rfl⟩ | ⟨-, -, rfl⟩ | ⟨-, w, e, -, refused, rfl⟩ | ⟨below, w, i, -, -, executed⟩⟩ := step_cases stepped
  · cases goesOn
  · cases goesOn
  · rw [decode_error_eq refused] at goesOn; cases goesOn
  · refine ⟨limitReached_eq_false_iff.mp below c limited, ?_⟩
    cases exec_ending executed with
    | continues after target => rw [commitContinue_ceiling, limited]; rfl
    | halts => cases goesOn
    | faults => cases goesOn

theorem run_succ {n : Nat} {s t : State} (stepped : step s = .next t) : core.run (n + 1) s = core.run n t := by
  have coreStepped : core.step s = .next t := stepped
  simp only [Host.Core.run, coreStepped]

/-- Settles O45: by induction on the steps the limit still allows. -/
theorem stepLimitEndsEveryRun : Obligations.StepLimitEndsEveryRun := by
  intro s c running limited
  induction left : c.limit - c.steps generalizing s c with
  | zero =>
    obtain ⟨t, stepped⟩ := exists_step running
    refine ⟨1, t, Nat.le_refl 1, run_succ stepped, ?_⟩
    cases goesOn : t.run with
    | halted => rfl
    | running =>
      obtain ⟨below, -⟩ := step_counts stepped goesOn limited
      omega
  | succ k ih =>
    obtain ⟨t, stepped⟩ := exists_step running
    cases goesOn : t.run with
    | halted => exact ⟨1, t, by omega, run_succ stepped, goesOn⟩
    | running =>
      obtain ⟨-, counted⟩ := step_counts stepped goesOn limited
      obtain ⟨n, u, bound, reaches, halted⟩ := ih t c.count goesOn counted (by simp only [StepCeiling.count]; omega)
      exact ⟨n + 1, u, by omega, (run_succ stepped).trans reaches, halted⟩

end Sys2Proof.Machine
end

section
/-! PROOFS. A store over the next instruction, and the fetch that follows it (20_memory.md R58). -/

namespace Sys2Proof.Machine

open Sys2Proof.Safety

/-- The word a 2-byte write left is the word that a fetch there reads. -/
theorem wordAt_of_write2 {m m' : Memory} {a : Nat} {w : Word} (written : m.write2 a w = some m') : wordAt m' a = w := by
  obtain ⟨-, low, high, -⟩ := Memory.write2_spec written
  rw [Int.toNat_natCast] at low high
  rw [wordAt, low, high]
  exact wordOfBytes_bytes w

/-- Settles O49: the store goes on to `pc + 2`, where the word it wrote is fetched. -/
theorem storeIsSeenByTheNextFetch : Obligations.StoreIsSeenByTheNextFetch := by
  intro s rs2 rs1 offset4 i running unlimited inside address decoded
  have target : 0 ≤ (s.pc.toNat : Int) + 2 ∧ (s.pc.toNat : Int) + 2 < 65536 := by omega
  obtain ⟨m, written, executes⟩ := execSw_admitted rs2 address (by omega)
  refine ⟨_, executes, ?_⟩
  have pc : (commitContinue s { s with mem := m } (s.pc.toNat + 2)).pc.toNat = s.pc.toNat + 2 := by
    have := commitContinue_pc_inside s { s with mem := m } target
    omega
  have unlimitedAfter : (commitContinue s { s with mem := m } (s.pc.toNat + 2)).ceiling = none := by
    rw [commitContinue_ceiling, State.stepLimit_eq_none.mp unlimited]; rfl
  apply stepRunsTheDecodedInstruction
  · exact
      { running := (commitContinue_run_inside s _ target).trans running
        belowLimit := fun c limited => by rw [unlimitedAfter] at limited; cases limited
        pcInside := by rw [pc]; omega }
  · rw [pc, commitContinue_mem]
    have stored : wordAt m (s.pc.toNat + 2) = s.reg rs2 := wordAt_of_write2 (by exact_mod_cast written)
    exact (congrArg decode stored).trans decoded

end Sys2Proof.Machine
end

section
/-! PROOFS. The remaining instructions, each by the form it shares: `lwu`, `jalr`, `lui` and the ecall services. -/

namespace Sys2Proof.Machine

open Sys2Proof.Safety

/-- Settles O20: `lwu` is the same 2-byte load as `lw`, with a selector of its own. -/
theorem loadWordUnsignedActsAsLoadWord : Obligations.LoadWordUnsignedActsAsLoadWord :=
  ⟨loadForm_of_loadHalf 5#3 rfl (fun _ _ _ => rfl) (fun _ _ _ _ => rfl), fun _ _ _ _ => rfl⟩

/-- Settles O22: `jalr` links and goes to the target formed from the state before the link. -/
theorem jalrReadsBaseBeforeLink : Obligations.JalrReadsBaseBeforeLink :=
  fun rd rs1 offset7 s =>
    ⟨encode_jalr_fields rd rs1 offset7, _, exec_jalr rd rs1 offset7 s, linkAndGo_frame rd _ s⟩

theorem luiSharedBits_toNat (imm12 : BitVec 12) : (luiSharedBits imm12).toNat = imm12.toNat / 4 % 8 := by
  rw [luiSharedBits, BitVec.extractLsb'_toNat, Nat.shiftRight_eq_div_pow]

theorem lui_wellFormed_iff (rd : Reg) (imm12 : BitVec 12) :
    (Instr.lui rd imm12).wellFormed = true ↔ imm12.toNat / 4 % 8 = rd.bits.toNat := by
  have checks : (Instr.lui rd imm12).wellFormed = true ↔ luiSharedBits imm12 = rd.bits := decide_eq_true_iff
  rw [checks, ← luiSharedBits_toNat, BitVec.toNat_inj]

theorem upperImmediate_toNat (imm12 : BitVec 12) : (upperImmediate imm12).toNat = imm12.toNat * 16 := by
  rw [upperImmediate, BitVec.toNat_append, Nat.shiftLeft_eq]; exact Nat.or_zero _

/-- Settles O23: `lui` writes the immediate above four zero bits, whatever the register held. -/
theorem luiReplacesRegister : Obligations.LuiReplacesRegister := by
  intro rd imm12 s
  obtain ⟨written, frame⟩ := commitContinue_setReg_frame (s := s) (rd := rd) (v := upperImmediate imm12)
    (target := s.pc.toNat + 2) rfl
  exact ⟨lui_wellFormed_iff rd imm12, encode_lui_fields rd imm12, _, exec_lui rd imm12 s,
    (congrArg BitVec.toNat written).trans (upperImmediate_toNat imm12), frame⟩

/-- Settles O25: the commit of `ecall 3`. -/
theorem haltServiceOnlyHalts : Obligations.HaltServiceOnlyHalts :=
  fun s => ⟨rfl, congrArg Host.Outcome.next (commitHalt_eq s)⟩

theorem diagForm_of_unknownService {i : Instr} {n : BitVec 3} (encodes : encode i = field n 3 ||| 0x0007#16)
    (executes : ∀ s, exec i s = .next (unknownService n s)) : DiagForm i n :=
  fun s => ⟨encodes, _, executes s, commitContinue_emit_frame s [.diag n] (s.pc.toNat + 2)⟩

/-- Settles O27: the five unknown services share one form. -/
theorem unknownServicesAreNotFatal : Obligations.UnknownServicesAreNotFatal :=
  ⟨diagForm_of_unknownService rfl fun _ => rfl, diagForm_of_unknownService rfl fun _ => rfl,
   diagForm_of_unknownService rfl fun _ => rfl, diagForm_of_unknownService rfl fun _ => rfl,
   diagForm_of_unknownService rfl fun _ => rfl⟩

theorem exec_ecallPrintString_of_nul {s : State} {bytes : List Byte} (scanned : stringAtEcallReg s = (bytes, true)) :
    exec .ecallPrintString s = .next (commitContinue s (s.emit (bytes.map .printByte)) (s.pc.toNat + 2)) := by
  rw [exec, execEcallPrintString, scanned]; rfl

theorem exec_ecallPrintString_without_nul {s : State} {bytes : List Byte}
    (scanned : stringAtEcallReg s = (bytes, false)) :
    exec .ecallPrintString s = .next (commitOutOfBounds s (s.emit (bytes.map .printByte)) 65536 1) := by
  rw [exec, execEcallPrintString, scanned]; rfl

/-- Settles O26: the scan finds the first zero byte below the top of memory, or prints every byte up to the top. -/
theorem printStringStopsAtNul : Obligations.PrintStringStopsAtNul := by
  rintro s a rfl
  refine ⟨fun n inside noneBefore zero => ?_, fun noZero => ?_⟩
  · have scanned : stringAtEcallReg s =
        ((List.range n).map fun k => s.mem.read ((s.reg .x6).toNat + k), true) :=
      Memory.scan_of_nul (Nat.lt_sub_of_add_lt (by rwa [Nat.add_comm])) zero noneBefore
    obtain ⟨out, limit, registers, memory, -⟩ := commitContinue_emit_frame s
      (((List.range n).map fun k => s.mem.read ((s.reg .x6).toNat + k)).map .printByte) (s.pc.toNat + 2)
    refine ⟨_, exec_ecallPrintString_of_nul scanned, ?_, limit, registers, memory,
      commitContinue_committed _ (.emit s _)⟩
    rw [out, List.map_map]; rfl
  · have scanned : stringAtEcallReg s =
        ((List.range (65536 - (s.reg .x6).toNat)).map fun k => s.mem.read ((s.reg .x6).toNat + k), false) :=
      Memory.scan_without_nul fun k below => noZero k (Nat.add_lt_of_lt_sub' below)
    refine ⟨_, exec_ecallPrintString_without_nul scanned, ?_, rfl, fun _ => rfl, fun _ => rfl, rfl, rfl, rfl⟩
    rw [commitOutOfBounds_eq, List.map_map]; rfl

end Sys2Proof.Machine
end
